-- ==== Sys2Proof/Word.lean ====
section
/-! DEFINITION. The words of the hardware (spec/00_scope.md R9, R10): every value is an unsigned integer of a
stated width. -/
namespace Sys2Proof

/-- One memory cell or general register: 8 bits (R9). -/
abbrev Byte := BitVec 8

/-- A 16-bit word: an opcode, the PC, the index register I, a return address (R9). -/
abbrev Word := BitVec 16

/-- The number of a general register, X or Y of an opcode (R91): 4 bits, all 16 values legal (R94). -/
abbrev RegNum := BitVec 4

/-- The number of a key, 0x0 to 0xF (R32). -/
abbrev KeyNum := BitVec 4

/-- VF, general register 15, also the flag output (R20, R21). -/
def VF : RegNum := 15#4

end Sys2Proof
end

