-- ==== Sys2Proof/Syntax.lean ====
section
/-! DEFINITION. The 34 instructions (spec/30_encoding.md R96), one constructor per row of spec/opcode_table.json.
The operand types carry the field widths of R91 and R94. -/
namespace Sys2Proof

/-- The instruction set of R96, in the table's order. `x` and `y` are register numbers, `n` the 4-bit, `nn` the
8-bit and `nnn` the 12-bit immediate (R12, R91). SHR and SHL keep the Y field they ignore (R102, R148, R150), so
that every word has its own instruction. -/
inductive Instr where
  /-- 00E0, clear the display (R180). -/
  | cls
  /-- 00EE, return (R122). -/
  | ret
  /-- 1NNN, jump (R120). -/
  | jp (nnn : BitVec 12)
  /-- 2NNN, call (R121). -/
  | call (nnn : BitVec 12)
  /-- 3XNN, skip if Vx = NN (R124). -/
  | seVxNN (x : RegNum) (nn : Byte)
  /-- 4XNN, skip if Vx ≠ NN (R125). -/
  | sneVxNN (x : RegNum) (nn : Byte)
  /-- 5XY0, skip if Vx = Vy (R126). -/
  | seVxVy (x y : RegNum)
  /-- 6XNN, load an immediate (R140). -/
  | ldVxNN (x : RegNum) (nn : Byte)
  /-- 7XNN, add an immediate, no flag (R141). -/
  | addVxNN (x : RegNum) (nn : Byte)
  /-- 8XY0, copy a register (R142). -/
  | ldVxVy (x y : RegNum)
  /-- 8XY1, bitwise or (R143). -/
  | orVxVy (x y : RegNum)
  /-- 8XY2, bitwise and (R144). -/
  | andVxVy (x y : RegNum)
  /-- 8XY3, bitwise exclusive or (R145). -/
  | xorVxVy (x y : RegNum)
  /-- 8XY4, add, VF the carry (R146). -/
  | addVxVy (x y : RegNum)
  /-- 8XY5, Vx - Vy, VF 1 for no borrow (R147). -/
  | subVxVy (x y : RegNum)
  /-- 8XY6, shift Vx right, VF the bit shifted out; Y ignored (R148). -/
  | shrVx (x y : RegNum)
  /-- 8XY7, Vy - Vx, VF 1 for no borrow (R149). -/
  | subnVxVy (x y : RegNum)
  /-- 8XYE, shift Vx left, VF the bit shifted out; Y ignored (R150). -/
  | shlVx (x y : RegNum)
  /-- 9XY0, skip if Vx ≠ Vy (R127). -/
  | sneVxVy (x y : RegNum)
  /-- ANNN, set the index register (R160). -/
  | ldI (nnn : BitVec 12)
  /-- BNNN, jump to NNN + V0 (R123). -/
  | jpV0 (nnn : BitVec 12)
  /-- CXNN, random byte and NN (R152). -/
  | rnd (x : RegNum) (nn : Byte)
  /-- DXYN, draw a sprite of N rows (R181). -/
  | drw (x y : RegNum) (n : BitVec 4)
  /-- EX9E, skip if the key is pressed (R190). -/
  | skp (x : RegNum)
  /-- EXA1, skip if the key is not pressed (R191). -/
  | sknp (x : RegNum)
  /-- FX07, read the delay timer (R193). -/
  | ldVxDt (x : RegNum)
  /-- FX0A, wait for a key release (R192). -/
  | ldVxK (x : RegNum)
  /-- FX15, set the delay timer (R194). -/
  | ldDtVx (x : RegNum)
  /-- FX18, set the sound timer (R195). -/
  | ldStVx (x : RegNum)
  /-- FX1E, add to the index register (R161). -/
  | addIVx (x : RegNum)
  /-- FX29, index of a font glyph (R162). -/
  | ldFVx (x : RegNum)
  /-- FX33, store three decimal digits (R163). -/
  | ldBVx (x : RegNum)
  /-- FX55, store V0 to VX (R164). -/
  | ldMemVx (x : RegNum)
  /-- FX65, load V0 to VX (R165). -/
  | ldVxMem (x : RegNum)
  deriving DecidableEq, Repr

end Sys2Proof
end

