-- ==== Sys2Proof/WellFormed.lean ====
section
/-! DEFINITION. The static checks of the spec: on an instruction, and on a program image. -/
namespace Sys2Proof

/-- "Every value of X, Y, N, NN, NNN is legal in every instruction that has the field" (spec/30_encoding.md R100)
and the operand types of `Instr` carry the widths of R91, so there is no ill-formed instruction (log 13). -/
def Instr.wellFormed (_ : Instr) : Bool := true

/-- The largest image `load_program` accepts: 0xFFF - 0x200 + 1 bytes (spec/70_reset_and_hazards.md R254). -/
def maxImageBytes : Nat := 3584

/-- An image that `load_program` accepts: any bytes, at most 3584 of them (R254; R101: no header, no structure). -/
def imageWellFormed (bytes : List Byte) : Bool := decide (bytes.length ≤ maxImageBytes)

end Sys2Proof
end

