-- ==== Sys2Proof/Decode.lean ====
section
/-! DEFINITION. The decoder (spec/30_encoding.md R90 to R100), total on any bytes, and the encoder written from the
same table (R96). -/
namespace Sys2Proof

/-- `op[15:12]`, the major opcode (R91). -/
def opMajor (w : Word) : BitVec 4 := w.extractLsb' 12 4

/-- X = `op[11:8]` (R91). -/
def opX (w : Word) : RegNum := w.extractLsb' 8 4

/-- Y = `op[7:4]` (R91). -/
def opY (w : Word) : RegNum := w.extractLsb' 4 4

/-- N = `op[3:0]` (R91). -/
def opN (w : Word) : BitVec 4 := w.extractLsb' 0 4

/-- NN = `op[7:0]` (R91, R94). -/
def opNN (w : Word) : Byte := w.extractLsb' 0 8

/-- NNN = `op[11:0]` (R91, R94). -/
def opNNN (w : Word) : BitVec 12 := w.extractLsb' 0 12

/-- Family 0: all 16 bits are fixed; every other word 0NNN is unknown (R97, R99). -/
def decodeFamily0 (w : Word) : Option Instr :=
  if w = 0x00E0 then some .cls
  else if w = 0x00EE then some .ret
  else none

/-- Family 8: selected by `op[3:0]`; selectors 8 to D and F are unknown (R97). -/
def decodeFamily8 (w : Word) : Option Instr :=
  match (opN w).toNat with
  | 0x0 => some (.ldVxVy (opX w) (opY w))
  | 0x1 => some (.orVxVy (opX w) (opY w))
  | 0x2 => some (.andVxVy (opX w) (opY w))
  | 0x3 => some (.xorVxVy (opX w) (opY w))
  | 0x4 => some (.addVxVy (opX w) (opY w))
  | 0x5 => some (.subVxVy (opX w) (opY w))
  | 0x6 => some (.shrVx (opX w) (opY w))
  | 0x7 => some (.subnVxVy (opX w) (opY w))
  | 0xE => some (.shlVx (opX w) (opY w))
  | _ => none

/-- Family E: selected by the whole low byte (R97). -/
def decodeFamilyE (w : Word) : Option Instr :=
  if opNN w = 0x9E then some (.skp (opX w))
  else if opNN w = 0xA1 then some (.sknp (opX w))
  else none

/-- Family F: selected by the whole low byte (R97). -/
def decodeFamilyF (w : Word) : Option Instr :=
  if opNN w = 0x07 then some (.ldVxDt (opX w))
  else if opNN w = 0x0A then some (.ldVxK (opX w))
  else if opNN w = 0x15 then some (.ldDtVx (opX w))
  else if opNN w = 0x18 then some (.ldStVx (opX w))
  else if opNN w = 0x1E then some (.addIVx (opX w))
  else if opNN w = 0x29 then some (.ldFVx (opX w))
  else if opNN w = 0x33 then some (.ldBVx (opX w))
  else if opNN w = 0x55 then some (.ldMemVx (opX w))
  else if opNN w = 0x65 then some (.ldVxMem (opX w))
  else none

/-- The decode procedure of R97, by the high nibble and then the secondary nibbles; `none` is an unknown
instruction (R98). -/
def decode (w : Word) : Option Instr :=
  match (opMajor w).toNat with
  | 0x0 => decodeFamily0 w
  | 0x1 => some (.jp (opNNN w))
  | 0x2 => some (.call (opNNN w))
  | 0x3 => some (.seVxNN (opX w) (opNN w))
  | 0x4 => some (.sneVxNN (opX w) (opNN w))
  | 0x5 => if opN w = 0 then some (.seVxVy (opX w) (opY w)) else none
  | 0x6 => some (.ldVxNN (opX w) (opNN w))
  | 0x7 => some (.addVxNN (opX w) (opNN w))
  | 0x8 => decodeFamily8 w
  | 0x9 => if opN w = 0 then some (.sneVxVy (opX w) (opY w)) else none
  | 0xA => some (.ldI (opNNN w))
  | 0xB => some (.jpV0 (opNNN w))
  | 0xC => some (.rnd (opX w) (opNN w))
  | 0xD => some (.drw (opX w) (opY w) (opN w))
  | 0xE => decodeFamilyE w
  | 0xF => decodeFamilyF w
  | _ => none

/-- Why a byte string is not an instruction. -/
inductive DecodeReject where
  /-- The word matches no row of R96 (R98). -/
  | unknownInstruction (opcode : Word)
  /-- Fewer than the two bytes every instruction has (R90). -/
  | tooShort
  deriving DecidableEq, Repr

/-- An opcode from its two bytes, the byte at the lower address first: big-endian (spec/20_memory.md R67). -/
def opcodeOfBytes (hi lo : Byte) : Word := hi ++ lo

/-- The decoder on bytes: the instruction and the bytes after it, or the reason of the rejection. -/
def decodeBytes : List Byte → Except DecodeReject (Instr × List Byte)
  | hi :: lo :: rest =>
    match decode (opcodeOfBytes hi lo) with
    | some i => .ok (i, rest)
    | none => .error (.unknownInstruction (opcodeOfBytes hi lo))
  | _ => .error .tooShort

/-! ## The encoder -/

/-- The word of an instruction: the pattern column of R96, fields placed as R91 and R93 say. -/
def encode : Instr → Word
  | .cls => 0x00E0#16
  | .ret => 0x00EE#16
  | .jp nnn => 0x1#4 ++ nnn
  | .call nnn => 0x2#4 ++ nnn
  | .seVxNN x nn => 0x3#4 ++ x ++ nn
  | .sneVxNN x nn => 0x4#4 ++ x ++ nn
  | .seVxVy x y => 0x5#4 ++ x ++ y ++ 0x0#4
  | .ldVxNN x nn => 0x6#4 ++ x ++ nn
  | .addVxNN x nn => 0x7#4 ++ x ++ nn
  | .ldVxVy x y => 0x8#4 ++ x ++ y ++ 0x0#4
  | .orVxVy x y => 0x8#4 ++ x ++ y ++ 0x1#4
  | .andVxVy x y => 0x8#4 ++ x ++ y ++ 0x2#4
  | .xorVxVy x y => 0x8#4 ++ x ++ y ++ 0x3#4
  | .addVxVy x y => 0x8#4 ++ x ++ y ++ 0x4#4
  | .subVxVy x y => 0x8#4 ++ x ++ y ++ 0x5#4
  | .shrVx x y => 0x8#4 ++ x ++ y ++ 0x6#4
  | .subnVxVy x y => 0x8#4 ++ x ++ y ++ 0x7#4
  | .shlVx x y => 0x8#4 ++ x ++ y ++ 0xE#4
  | .sneVxVy x y => 0x9#4 ++ x ++ y ++ 0x0#4
  | .ldI nnn => 0xA#4 ++ nnn
  | .jpV0 nnn => 0xB#4 ++ nnn
  | .rnd x nn => 0xC#4 ++ x ++ nn
  | .drw x y n => 0xD#4 ++ x ++ y ++ n
  | .skp x => 0xE#4 ++ x ++ 0x9E#8
  | .sknp x => 0xE#4 ++ x ++ 0xA1#8
  | .ldVxDt x => 0xF#4 ++ x ++ 0x07#8
  | .ldVxK x => 0xF#4 ++ x ++ 0x0A#8
  | .ldDtVx x => 0xF#4 ++ x ++ 0x15#8
  | .ldStVx x => 0xF#4 ++ x ++ 0x18#8
  | .addIVx x => 0xF#4 ++ x ++ 0x1E#8
  | .ldFVx x => 0xF#4 ++ x ++ 0x29#8
  | .ldBVx x => 0xF#4 ++ x ++ 0x33#8
  | .ldMemVx x => 0xF#4 ++ x ++ 0x55#8
  | .ldVxMem x => 0xF#4 ++ x ++ 0x65#8

/-- The two bytes of an instruction in memory order (R67, R90). -/
def encodeBytes (i : Instr) : List Byte := [(encode i).extractLsb' 8 8, (encode i).extractLsb' 0 8]

/-! ## The instruction table of R96, row by row: match and mask -/

/-- A row of R96: a word `op` is the row's when `(op & mask) = value` (R97). -/
structure OpcodeRow where
  value : Word
  mask : Word
  deriving DecidableEq, Repr

/-- The test of R97. -/
def hitsRow (w : Word) (r : OpcodeRow) : Bool := w &&& r.mask == r.value

/-- The row of an instruction, numbered and masked as R96 lists it. -/
def opcodeRow : Instr → OpcodeRow
  | .cls => ⟨0x00E0, 0xFFFF⟩
  | .ret => ⟨0x00EE, 0xFFFF⟩
  | .jp _ => ⟨0x1000, 0xF000⟩
  | .call _ => ⟨0x2000, 0xF000⟩
  | .seVxNN _ _ => ⟨0x3000, 0xF000⟩
  | .sneVxNN _ _ => ⟨0x4000, 0xF000⟩
  | .seVxVy _ _ => ⟨0x5000, 0xF00F⟩
  | .ldVxNN _ _ => ⟨0x6000, 0xF000⟩
  | .addVxNN _ _ => ⟨0x7000, 0xF000⟩
  | .ldVxVy _ _ => ⟨0x8000, 0xF00F⟩
  | .orVxVy _ _ => ⟨0x8001, 0xF00F⟩
  | .andVxVy _ _ => ⟨0x8002, 0xF00F⟩
  | .xorVxVy _ _ => ⟨0x8003, 0xF00F⟩
  | .addVxVy _ _ => ⟨0x8004, 0xF00F⟩
  | .subVxVy _ _ => ⟨0x8005, 0xF00F⟩
  | .shrVx _ _ => ⟨0x8006, 0xF00F⟩
  | .subnVxVy _ _ => ⟨0x8007, 0xF00F⟩
  | .shlVx _ _ => ⟨0x800E, 0xF00F⟩
  | .sneVxVy _ _ => ⟨0x9000, 0xF00F⟩
  | .ldI _ => ⟨0xA000, 0xF000⟩
  | .jpV0 _ => ⟨0xB000, 0xF000⟩
  | .rnd _ _ => ⟨0xC000, 0xF000⟩
  | .drw _ _ _ => ⟨0xD000, 0xF000⟩
  | .skp _ => ⟨0xE09E, 0xF0FF⟩
  | .sknp _ => ⟨0xE0A1, 0xF0FF⟩
  | .ldVxDt _ => ⟨0xF007, 0xF0FF⟩
  | .ldVxK _ => ⟨0xF00A, 0xF0FF⟩
  | .ldDtVx _ => ⟨0xF015, 0xF0FF⟩
  | .ldStVx _ => ⟨0xF018, 0xF0FF⟩
  | .addIVx _ => ⟨0xF01E, 0xF0FF⟩
  | .ldFVx _ => ⟨0xF029, 0xF0FF⟩
  | .ldBVx _ => ⟨0xF033, 0xF0FF⟩
  | .ldMemVx _ => ⟨0xF055, 0xF0FF⟩
  | .ldVxMem _ => ⟨0xF065, 0xF0FF⟩

/-- One instruction of each row, fields zero: the rows of R96 in order. -/
def rowInstrs : List Instr :=
  [.cls, .ret, .jp 0, .call 0, .seVxNN 0 0, .sneVxNN 0 0, .seVxVy 0 0, .ldVxNN 0 0, .addVxNN 0 0,
   .ldVxVy 0 0, .orVxVy 0 0, .andVxVy 0 0, .xorVxVy 0 0, .addVxVy 0 0, .subVxVy 0 0, .shrVx 0 0, .subnVxVy 0 0,
   .shlVx 0 0, .sneVxVy 0 0, .ldI 0, .jpV0 0, .rnd 0 0, .drw 0 0 0, .skp 0, .sknp 0, .ldVxDt 0, .ldVxK 0,
   .ldDtVx 0, .ldStVx 0, .addIVx 0, .ldFVx 0, .ldBVx 0, .ldMemVx 0, .ldVxMem 0]

/-- The 34 rows of R96. -/
def opcodeTable : List OpcodeRow := rowInstrs.map opcodeRow

/-! ## The host's view -/

/-- The instruction this decoder reads from an instruction whose table bits are `w` (bits at and above `nbits` are
0): the word laid out as the hardware stores it, high byte first, and given to `decodeBytes`. -/
def decodeTableWord (nbits w : Nat) : Option Instr :=
  let word : Word := BitVec.ofNat 16 (w % 2 ^ nbits)
  match decodeBytes [word.extractLsb' 8 8, word.extractLsb' 0 8] with
  | .ok (i, _) => some i
  | .error _ => none

end Sys2Proof
end

