-- ==== Sys2Proof/Config.lean ====
section
/-! DEFINITION. What the implementation fixes and what the spec leaves free: the OPEN parameters of
spec/00_scope.md R9 and the free draw of R6. Opaque: nothing in Lean can evaluate them, so a claim holds for
every value. -/
namespace Sys2Proof.Config

/-- `FONT_BASE`, OPEN with 0 ≤ FONT_BASE and FONT_BASE + 79 ≤ 0x1FF (R9, R30): one of 0 to 0x1B0, 433 values.
DESIGN CHOICE (log 1): a constant without a value. Safe: whatever is proved holds for each of them. -/
opaque fontBase : Fin 433

/-- `FONT_DATA`, OPEN, 80 bytes: `fontData k` is byte k (R9, R30). DESIGN CHOICE (log 1), safe as `fontBase`. -/
opaque fontData : Fin 80 → Byte

/-- The byte `rnd` that the `k`-th random draw delivers: a free value (R6, R152). DESIGN CHOICE (log 2), safe. -/
opaque freeRnd : Nat → Byte

end Sys2Proof.Config
end

