-- ==== Sys2Proof/Machine/State.lean ====
section
/-! DEFINITION. The state of the block (spec/10_state.md R35, R36), its reset value (R37), and the reasons a step can
stop. Plain data throughout. -/
namespace Sys2Proof.Machine

/-- The five fatal errors and their recorded fields (spec/60_exceptions.md R200, R202). -/
inductive HaltReason where
  /-- Code 1: the word fetched matches no row of R96; `pc` is where it was fetched. -/
  | unknownInstruction (opcode pc : Word)
  /-- Code 2: the lowest out-of-range address of the access (R65). -/
  | memoryOutOfBounds (address : Word)
  /-- Code 3: CALL with SP = 16 (R121). -/
  | stackOverflow
  /-- Code 4: RET with SP = 0 (R122). -/
  | stackUnderflow
  /-- Code 5: an image of more than 3584 bytes (R255). -/
  | programTooLarge (size : Nat)
  deriving DecidableEq, Repr

/-- `run_state` (R34). `halted` carries the error record of R36. -/
inductive RunState where
  | running
  | waitingForKey
  | halted (reason : HaltReason)
  deriving DecidableEq, Repr

/-- The events that drive the block (spec/00_scope.md R5). The input `rnd` of `step` is a free value (log 2), so
`step` carries none here. -/
inductive Event where
  | init
  | loadProgram (bytes : List Byte)
  | step
  | tick
  | setPressed (k : KeyNum) (down : Bool)
  deriving DecidableEq, Repr

/-- Memory as the cells that differ from what `init` leaves, by rising address (R29, R37; log 5). -/
abbrev Memory := List Host.Cell

/-- The display buffer `fb[row][col]`: 32 rows of 64 pixels, true is set (R31). -/
abbrev Screen := Vector (Vector Bool 64) 32

/-- The closed list of R35, and two fields of the model's own (`inputs`, `draws`). -/
structure State where
  /-- V0 to VF (R20). -/
  v : Vector Byte 16
  /-- The program counter (R22). -/
  pc : Word
  /-- The index register I (R26). -/
  i : Word
  /-- `stack[0..15]` (R27). -/
  stack : Vector Word 16
  /-- SP, the number of entries in use, 0 to 16 (R27, R36; log 9). -/
  sp : Fin 17
  /-- The delay timer DT (R28). -/
  dt : Byte
  /-- The sound timer ST (R28). -/
  st : Byte
  /-- `mem[0x000..0xFFF]` (R29). -/
  mem : Memory
  /-- The display buffer (R31). -/
  fb : Screen
  /-- `keys[0..15]`, true is pressed (R32). -/
  keys : Vector Bool 16
  /-- The key-release latch (R33). -/
  latch : Option KeyNum
  /-- The run state with the error record (R34, R36). -/
  runState : RunState
  /-- MODEL'S OWN: the events the environment issues before its next default `step`, oldest first (R5, R8).
  DESIGN CHOICE (log 3), unsafe for a claim about the run from reset alone, where it is empty. -/
  inputs : List Event
  /-- MODEL'S OWN: how many random bytes RND has consumed (R6). DESIGN CHOICE (log 2), safe. -/
  draws : Nat
  deriving DecidableEq, Repr

/-- Why the machine stops with a fault. No instruction raises one: the spec's fatal errors are next states in
`Halted` (R203; log 10). -/
inductive Fault where
  /-- Raised by the event `load_program` outside the state `init` leaves, for which "a model has no move" (R256).
  DESIGN CHOICE (log 6), safe: the model stops where the spec gives no behaviour. -/
  | loadOutsideBoot
  deriving DecidableEq, Repr

/-- Why the machine refuses. Every instruction has its meaning, so no arm of `exec` answers this. -/
inductive Refusal where
  /-- Raised by `exec` for an instruction without a meaning: none is left. Safe. -/
  | notModelled (mnemonic : String)
  deriving DecidableEq, Repr

/-- The state after `init` (R37, R250). V0 to VF, I and the stack entries are 0 by the spec's own decisions D19 and
D20 (log 4, unsafe). `inputs` and `draws` are the model's (logs 2 and 3). -/
def State.reset : State where
  v := Vector.replicate 16 0
  pc := 0x200
  i := 0
  stack := Vector.replicate 16 0
  sp := 0
  dt := 0
  st := 0
  mem := []
  fb := Vector.replicate 32 (Vector.replicate 64 false)
  keys := Vector.replicate 16 false
  latch := none
  runState := .running
  inputs := []
  draws := 0

end Sys2Proof.Machine
end

