-- ==== Sys2Proof/Machine/Ops.lean ====
section
/-! DEFINITION. The named operations over memory, registers, stack and display, taking a fatal error and the one way
out of it, and the instruction fetch. -/
namespace Sys2Proof.Machine

/-- The outcome of a step or of a meaning. -/
abbrev Out := Host.Outcome State Fault Refusal

/-! ## Memory (spec/20_memory.md) -/

/-- The last address of the memory, 0xFFF (R60). -/
def lastAddress : Nat := 0xFFF

/-- The byte `init` leaves at an address, which is what an unlisted address reads as: FONT_DATA at FONT_BASE to
FONT_BASE + 79, which lie below 0x200 (R9, R30), and 0 everywhere else (R37, R70). -/
def initByte (a : Nat) : Byte :=
  if 0x200 ≤ a then 0
  else
    let base := Config.fontBase.val
    if h : base ≤ a ∧ a < base + 80 then Config.fontData ⟨a - base, by omega⟩ else 0

/-- The byte at an address (the total read under `MemRead(addr, 1)` of R62; the bounds check is `rangeError`). -/
def readByte (m : Memory) (a : Nat) : Byte :=
  match m with
  | [] => initByte a
  | (b, x) :: rest => if b = a then x else readByte rest a

/-- The memory with nothing listed at `a`. -/
def eraseCell (m : Memory) (a : Nat) : Memory := m.filter fun c => c.1 != a

/-- The cell put in at its place by address. -/
def insertCell (m : Memory) (a : Nat) (x : Byte) : Memory :=
  match m with
  | [] => [(a, x)]
  | (b, y) :: rest => if a < b then (a, x) :: (b, y) :: rest else (b, y) :: insertCell rest a x

/-- `mem[a] <- x` (R64), keeping the canonical form: a byte equal to what the address reads as unlisted is not
listed. -/
def writeByte (m : Memory) (a : Nat) (x : Byte) : Memory :=
  if x = initByte a then eraseCell m a else insertCell (eraseCell m a) a x

/-- Bytes written at ascending addresses from `a` (R67, R69). -/
def writeBytes (m : Memory) (a : Nat) (bytes : List Byte) : Memory :=
  match bytes with
  | [] => m
  | x :: rest => writeBytes (writeByte m a x) (a + 1) rest

/-- The `n` bytes at `a`, `a + 1`, ... (R67, R69). -/
def readBytes (m : Memory) (a n : Nat) : List Byte :=
  match n with
  | 0 => []
  | k + 1 => readByte m a :: readBytes m (a + 1) k

/-- The canonical form: addresses strictly rising, inside the address space, no cell equal to the initial byte. -/
def memoryWf (m : Memory) : Bool :=
  match m with
  | [] => true
  | (a, x) :: rest =>
    decide (a ≤ lastAddress) && decide (x ≠ initByte a) && rest.all (fun c => decide (a < c.1)) && memoryWf rest

/-- The bounds check of a run of `n` bytes from `base` (R65): the whole run is tested over the integers and the
lowest out-of-range address, `max(base, 0x1000)`, is reported; an empty run cannot fail. -/
def rangeError (base : Word) (n : Nat) : Option HaltReason :=
  if n = 0 ∨ base.toNat + n - 1 ≤ lastAddress then none
  else some (.memoryOutOfBounds (if base.toNat ≤ lastAddress then 0x1000 else base))

/-! ## Taking a fatal error, and the way out -/

/-- The entry into `Halted` (spec/60_exceptions.md R203): the run state records the reason and nothing else changes;
PC stays at the instruction. There is no vector and no handler. -/
def raise (e : HaltReason) (s : State) : Out := .next { s with runState := .halted e }

/-- The `init` event, the only way out of `Halted` (R206; spec/70_reset_and_hazards.md R250, R251): every piece of
the spec's state gets its reset value. The model's own fields, which belong to the environment, go on (log 3). -/
def reinit (s : State) : State := { State.reset with inputs := s.inputs, draws := s.draws }

/-- An access to `n` bytes at `base`: the error of the bounds check, taken before any effect, or the effect (R65). -/
def withRange (base : Word) (n : Nat) (s : State) (effect : Out) : Out :=
  match rangeError base n with
  | some e => raise e s
  | none => effect

/-! ## Registers (spec/10_state.md R20) -/

/-- `V[r]`. -/
def reg (s : State) (r : RegNum) : Byte := s.v[r.toNat]'r.isLt

/-- `V[r] <- x`. -/
def setReg (s : State) (r : RegNum) (x : Byte) : State := { s with v := s.v.set r.toNat x r.isLt }

/-- `V[k] <- bytes[0]`, `V[k + 1] <- bytes[1]`, ... (R165). -/
def setRegsFrom (s : State) (k : Nat) (bytes : List Byte) : State :=
  match bytes with
  | [] => s
  | x :: rest => setRegsFrom (setReg s (BitVec.ofNat 4 k) x) (k + 1) rest

/-- V0 to VX, X + 1 registers in order (R164). -/
def regsUpTo (s : State) (x : RegNum) : List Byte :=
  (List.range (x.toNat + 1)).map fun k => reg s (BitVec.ofNat 4 k)

/-! ## The program counter (R22 to R25) -/

/-- `PC <- a`. -/
def setPc (s : State) (a : Word) : State := { s with pc := a }

/-- `NEXT`: PC + 2 modulo 65536 (R11, R25). -/
def advance (s : State) : State := setPc s (s.pc + 2)

/-- `SKIP`: PC + 4 modulo 65536, over one 2-byte slot (R11, spec/40_control_flow.md R128). -/
def skipNext (s : State) : State := setPc s (s.pc + 4)

/-- A skip instruction: SKIP when the condition holds, else NEXT (R23). -/
def skipIf (cond : Bool) (s : State) : State := if cond then skipNext s else advance s

/-! ## The stack (R27) -/

/-- `stack[SP] <- a; SP <- SP + 1`, or nothing when 16 entries are in use (R121). -/
def push (s : State) (a : Word) : Option State :=
  if h : s.sp.val < 16 then
    some { s with stack := s.stack.set s.sp.val a h, sp := ⟨s.sp.val + 1, by omega⟩ }
  else none

/-- `SP <- SP - 1` and the entry at the new SP, or nothing when the stack is empty (R122). -/
def pop (s : State) : Option (Word × State) :=
  if h : 0 < s.sp.val then
    some (s.stack[s.sp.val - 1]'(by omega), { s with sp := ⟨s.sp.val - 1, by omega⟩ })
  else none

/-! ## The display (R31) -/

/-- A pixel's row, 0 to 31, and column, 0 to 63: 5 and 6 bits, so that sums wrap at the edges of the buffer
(spec/43_display.md R182). -/
abbrev Pixel := BitVec 5 × BitVec 6

/-- `fb[row][col]`. -/
def pixel (fb : Screen) (p : Pixel) : Bool := (fb[p.1.toNat]'p.1.isLt)[p.2.toNat]'p.2.isLt

/-- `fb[row][col] <- b`. -/
def setPixel (fb : Screen) (p : Pixel) (b : Bool) : Screen :=
  fb.set p.1.toNat ((fb[p.1.toNat]'p.1.isLt).set p.2.toNat b p.2.isLt) p.1.isLt

/-- The display with every pixel unset (R180). -/
def clearScreen : Screen := Vector.replicate 32 (Vector.replicate 64 false)

/-- One lit sprite pixel drawn: a set pixel under it is a collision, and the pixel is flipped (R181). -/
def flipPixel (d : Screen × Bool) (p : Pixel) : Screen × Bool :=
  (setPixel d.1 p (pixel d.1 p ^^ true), d.2 || pixel d.1 p)

/-- The lit pixels of one sprite row, most significant bit first, columns modulo 64 (R181, R182). -/
def spriteRowPixels (row : BitVec 5) (x0 : BitVec 6) (b : Byte) : List Pixel :=
  ((List.range 8).filter fun c => b.getLsbD (7 - c)).map fun c => (row, x0 + BitVec.ofNat 6 c)

/-- The lit pixels of a sprite whose first byte is its row `r`, rows modulo 32, the same `x0` for every row (R182). -/
def spritePixels (y0 : BitVec 5) (x0 : BitVec 6) (r : Nat) (bytes : List Byte) : List Pixel :=
  match bytes with
  | [] => []
  | b :: rest => spriteRowPixels (y0 + BitVec.ofNat 5 r) x0 b ++ spritePixels y0 x0 (r + 1) rest

/-- The XOR blit (R181): the new display, and whether a pixel went from set to unset. -/
def blit (fb : Screen) (y0 : BitVec 5) (x0 : BitVec 6) (bytes : List Byte) : Screen × Bool :=
  (spritePixels y0 x0 0 bytes).foldl flipPixel (fb, false)

/-! ## The keypad (R32) -/

/-- `keys[k]`. -/
def key (s : State) (k : KeyNum) : Bool := s.keys[k.toNat]'k.isLt

/-- `keys[k] <- b`. -/
def setKey (s : State) (k : KeyNum) (b : Bool) : State := { s with keys := s.keys.set k.toNat b k.isLt }

/-! ## Instruction fetch (R66) -/

/-- `MemRead(PC, 2)`: the big-endian word at PC, or the error of its bounds check. PC does not change. -/
def fetch (s : State) : Except HaltReason Word :=
  match rangeError s.pc 2 with
  | some e => .error e
  | none => .ok (opcodeOfBytes (readByte s.mem s.pc.toNat) (readByte s.mem (s.pc.toNat + 1)))

end Sys2Proof.Machine
end

