-- ==== Sys2Proof/Machine/Operands.lean ====
section
/-! DEFINITION. The operand forms (spec/30_encoding.md R94, R95): registers by number, the low nibble of a register,
zero-extended immediates, the bytes at I. -/
namespace Sys2Proof.Machine

/-- `zext_16(NNN)`: a 12-bit address written to PC or I (R94). -/
def addressOperand (nnn : BitVec 12) : Word := nnn.setWidth 16

/-- `zext_16(V[x])` (R123, R161). -/
def regAsWord (s : State) (x : RegNum) : Word := (reg s x).setWidth 16

/-- `V[x][3:0]`: a key number or a font digit; bits 7:4 are ignored (R162, R190). -/
def lowNibble (s : State) (x : RegNum) : BitVec 4 := (reg s x).extractLsb' 0 4

/-- `V[x] mod 64` = `V[x][5:0]`: the start column of a sprite (R181). -/
def columnOperand (s : State) (x : RegNum) : BitVec 6 := (reg s x).extractLsb' 0 6

/-- `V[y] mod 32` = `V[y][4:0]`: the start row of a sprite (R181). -/
def rowOperand (s : State) (y : RegNum) : BitVec 5 := (reg s y).extractLsb' 0 5

/-- The memory operand: the `n` bytes at I, I + 1, ... (R95). -/
def bytesAtI (s : State) (n : Nat) : List Byte := readBytes s.mem s.i.toNat n

/-- Store bytes at I, I + 1, ...; I does not change (R163, R164). -/
def storeAtI (s : State) (bytes : List Byte) : State := { s with mem := writeBytes s.mem s.i.toNat bytes }

/-- The address of the glyph of a hexadecimal digit: FONT_BASE + 5 * d (R162). -/
def glyphAddress (d : BitVec 4) : Word := BitVec.ofNat 16 (Config.fontBase.val + 5 * d.toNat)

/-- The three decimal digits of a byte, hundreds first, each a value 0 to 9 (R163). -/
def decimalDigits (x : Byte) : List Byte :=
  [BitVec.ofNat 8 (x.toNat / 100), BitVec.ofNat 8 (x.toNat / 10 % 10), BitVec.ofNat 8 (x.toNat % 10)]

end Sys2Proof.Machine
end

