-- ==== Sys2Proof/Machine/Flags.lean ====
section
/-! DEFINITION. The flag computations (spec/10_state.md R21): each is a bit that an instruction writes to VF, after
its result, as the whole byte 0x00 or 0x01. -/
namespace Sys2Proof.Machine

/-- A flag as the byte VF holds: 0x00 or 0x01, never only bit 0 (R21). -/
def flagByte (b : Bool) : Byte := if b then 1 else 0

/-- The carry out of an 8-bit sum; there is no carry in (R146). -/
def carryOut (a b : Byte) : Bool := decide (a.toNat + b.toNat > 255)

/-- No borrow of `a - b`: `a >= b`, equality included (R147, R149; the spec's decision D8). -/
def noBorrow (a b : Byte) : Bool := decide (a.toNat ≥ b.toNat)

/-- The bit a right shift by one moves out (R148). -/
def shiftedOutRight (a : Byte) : Bool := a.getLsbD 0

/-- The bit a left shift by one moves out (R150). -/
def shiftedOutLeft (a : Byte) : Bool := a.getLsbD 7

/-- Write the result to Vx and then the flag to VF: with x = 15 the flag wins (R21, R261). -/
def setRegThenFlag (s : State) (x : RegNum) (result : Byte) (flag : Bool) : State :=
  setReg (setReg s x result) VF (flagByte flag)

end Sys2Proof.Machine
end

