-- ==== Sys2Proof/Machine/ControlFlow.lean ====
section
/-! DEFINITION. Control flow (spec/40_control_flow.md R120 to R128). -/
namespace Sys2Proof.Machine

/-- RET (R122). -/
def execRet (s : State) : Out :=
  match pop s with
  | none => raise .stackUnderflow s
  | some (a, s') => .next (setPc s' a)

/-- JP NNN (R120). -/
def execJp (nnn : BitVec 12) (s : State) : Out := .next (setPc s (addressOperand nnn))

/-- CALL NNN (R121). -/
def execCall (nnn : BitVec 12) (s : State) : Out :=
  match push s (s.pc + 2) with
  | none => raise .stackOverflow s
  | some s' => .next (setPc s' (addressOperand nnn))

/-- SE Vx, NN (R124). -/
def execSeVxNN (x : RegNum) (nn : Byte) (s : State) : Out := .next (skipIf (reg s x == nn) s)

/-- SNE Vx, NN (R125). -/
def execSneVxNN (x : RegNum) (nn : Byte) (s : State) : Out := .next (skipIf (reg s x != nn) s)

/-- SE Vx, Vy (R126). -/
def execSeVxVy (x y : RegNum) (s : State) : Out := .next (skipIf (reg s x == reg s y) s)

/-- SNE Vx, Vy (R127). -/
def execSneVxVy (x y : RegNum) (s : State) : Out := .next (skipIf (reg s x != reg s y) s)

/-- JP V0, NNN (R123): the sum is not masked to 12 bits. -/
def execJpV0 (nnn : BitVec 12) (s : State) : Out := .next (setPc s (addressOperand nnn + regAsWord s 0))

end Sys2Proof.Machine
end

