-- ==== Sys2Proof/Machine/Display.lean ====
section
/-! DEFINITION. Display instructions (spec/43_display.md R180 to R183). -/
namespace Sys2Proof.Machine

/-- CLS (R180). -/
def execCls (s : State) : Out := .next (advance { s with fb := clearScreen })

/-- The drawing of a sprite of `n` rows at I, after the bounds check (R181). -/
def drawSprite (x y : RegNum) (n : Nat) (s : State) : State :=
  let drawn := blit s.fb (rowOperand s y) (columnOperand s x) (bytesAtI s n)
  setReg { s with fb := drawn.1 } VF (flagByte drawn.2)

/-- DRW Vx, Vy, N (R181): the whole sprite is tested first; VF is written last. N = 0 draws nothing (R183). -/
def execDrw (x y : RegNum) (n : BitVec 4) (s : State) : Out :=
  withRange s.i n.toNat s (.next (advance (drawSprite x y n.toNat s)))

end Sys2Proof.Machine
end

