-- ==== Sys2Proof/Machine/IndexMemory.lean ====
section
/-! DEFINITION. Index register and memory instructions (spec/42_index_memory.md R160 to R165). I is unchanged by the
stores and loads. -/
namespace Sys2Proof.Machine

/-- LD I, NNN (R160). -/
def execLdI (nnn : BitVec 12) (s : State) : Out := .next (advance { s with i := addressOperand nnn })

/-- ADD I, Vx (R161): modulo 65536, VF not written, no fault. -/
def execAddIVx (x : RegNum) (s : State) : Out := .next (advance { s with i := s.i + regAsWord s x })

/-- LD F, Vx (R162): an address only, memory is not read. -/
def execLdFVx (x : RegNum) (s : State) : Out := .next (advance { s with i := glyphAddress (lowNibble s x) })

/-- LD B, Vx (R163). -/
def execLdBVx (x : RegNum) (s : State) : Out :=
  withRange s.i 3 s (.next (advance (storeAtI s (decimalDigits (reg s x)))))

/-- LD [I], Vx (R164): V0 to VX inclusive. -/
def execLdMemVx (x : RegNum) (s : State) : Out :=
  withRange s.i (x.toNat + 1) s (.next (advance (storeAtI s (regsUpTo s x))))

/-- LD Vx, [I] (R165): V0 to VX inclusive. -/
def execLdVxMem (x : RegNum) (s : State) : Out :=
  withRange s.i (x.toNat + 1) s (.next (advance (setRegsFrom s 0 (bytesAtI s (x.toNat + 1)))))

end Sys2Proof.Machine
end

