-- ==== Sys2Proof/Machine/KeypadTimers.lean ====
section
/-! DEFINITION. Keypad and timer instructions (spec/44_keypad_timers.md R190 to R195). -/
namespace Sys2Proof.Machine

/-- SKP Vx (R190): the key number is the low nibble of Vx. -/
def execSkp (x : RegNum) (s : State) : Out := .next (skipIf (key s (lowNibble s x)) s)

/-- SKNP Vx (R191). -/
def execSknp (x : RegNum) (s : State) : Out := .next (skipIf (!key s (lowNibble s x)) s)

/-- LD Vx, DT (R193). -/
def execLdVxDt (x : RegNum) (s : State) : Out := .next (advance (setReg s x s.dt))

/-- LD Vx, K, the first part (R192): the latch is emptied and the core waits; PC and Vx are unchanged. The second
part is `retireKeyWait`. -/
def execLdVxK (_x : RegNum) (s : State) : Out := .next { s with latch := none, runState := .waitingForKey }

/-- LD DT, Vx (R194). -/
def execLdDtVx (x : RegNum) (s : State) : Out := .next (advance { s with dt := reg s x })

/-- LD ST, Vx (R195). -/
def execLdStVx (x : RegNum) (s : State) : Out := .next (advance { s with st := reg s x })

end Sys2Proof.Machine
end

