-- ==== Sys2Proof/Machine/RegisterAlu.lean ====
section
/-! DEFINITION. Register and ALU instructions (spec/41_register_alu.md R140 to R152): unsigned 8-bit arithmetic that
wraps (R151). -/
namespace Sys2Proof.Machine

/-- LD Vx, NN (R140). -/
def execLdVxNN (x : RegNum) (nn : Byte) (s : State) : Out := .next (advance (setReg s x nn))

/-- ADD Vx, NN (R141): no flag. -/
def execAddVxNN (x : RegNum) (nn : Byte) (s : State) : Out := .next (advance (setReg s x (reg s x + nn)))

/-- LD Vx, Vy (R142). -/
def execLdVxVy (x y : RegNum) (s : State) : Out := .next (advance (setReg s x (reg s y)))

/-- OR Vx, Vy (R143): VF not written. -/
def execOrVxVy (x y : RegNum) (s : State) : Out := .next (advance (setReg s x (reg s x ||| reg s y)))

/-- AND Vx, Vy (R144): VF not written. -/
def execAndVxVy (x y : RegNum) (s : State) : Out := .next (advance (setReg s x (reg s x &&& reg s y)))

/-- XOR Vx, Vy (R145): VF not written. -/
def execXorVxVy (x y : RegNum) (s : State) : Out := .next (advance (setReg s x (reg s x ^^^ reg s y)))

/-- ADD Vx, Vy (R146). -/
def execAddVxVy (x y : RegNum) (s : State) : Out :=
  .next (advance (setRegThenFlag s x (reg s x + reg s y) (carryOut (reg s x) (reg s y))))

/-- SUB Vx, Vy (R147): Vx - Vy. -/
def execSubVxVy (x y : RegNum) (s : State) : Out :=
  .next (advance (setRegThenFlag s x (reg s x - reg s y) (noBorrow (reg s x) (reg s y))))

/-- SHR Vx (R148): Vy neither read nor written. -/
def execShrVx (x _y : RegNum) (s : State) : Out :=
  .next (advance (setRegThenFlag s x (reg s x >>> 1) (shiftedOutRight (reg s x))))

/-- SUBN Vx, Vy (R149): Vy - Vx. -/
def execSubnVxVy (x y : RegNum) (s : State) : Out :=
  .next (advance (setRegThenFlag s x (reg s y - reg s x) (noBorrow (reg s y) (reg s x))))

/-- SHL Vx (R150): Vy neither read nor written. -/
def execShlVx (x _y : RegNum) (s : State) : Out :=
  .next (advance (setRegThenFlag s x (reg s x <<< 1) (shiftedOutLeft (reg s x))))

/-- RND with the byte `rnd` delivered by the environment (R152). -/
def rndWith (rnd : Byte) (x : RegNum) (nn : Byte) (s : State) : State := advance (setReg s x (rnd &&& nn))

/-- RND Vx, NN (R152): `rnd` is a free value, a fresh one at every draw (R6; log 2). -/
def execRnd (x : RegNum) (nn : Byte) (s : State) : Out :=
  .next { rndWith (Config.freeRnd s.draws) x nn s with draws := s.draws + 1 }

end Sys2Proof.Machine
end

