-- ==== Sys2Proof/Machine/Events.lean ====
section
/-! DEFINITION. The events of the block (spec/00_scope.md R5): `step` in its three run states, `tick`,
`set_pressed`, `load_program`; `init` is `reinit` of Ops. Each is atomic (spec/20_memory.md R69, R72). -/
namespace Sys2Proof.Machine

/-! ## The step event (spec/60_exceptions.md R210 to R212) -/

/-- `step` in `Running`: fetch, decode, execute, the first error ends the event (R204, R210). -/
def runCycle (s : State) : Out :=
  match fetch s with
  | .error e => raise e s
  | .ok op =>
    match decode op with
    | none => raise (.unknownInstruction op s.pc) s
    | some d => exec d s

/-- The destination of the suspended LD Vx, K: `mem[PC][3:0]` (R211; for a PC outside the memory see log 8). -/
def waitDestination (s : State) : RegNum := (readByte s.mem s.pc.toNat).extractLsb' 0 4

/-- `step` in `WaitingForKey` (R192 second part, R211): with a latched key the suspended instruction retires,
otherwise nothing changes. -/
def retireKeyWait (s : State) : State :=
  match s.latch with
  | none => s
  | some k => advance { setReg s (waitDestination s) (k.setWidth 8) with latch := none, runState := .running }

/-- The `step` event (R210, R211, R212). -/
def stepEvent (s : State) : Out :=
  match s.runState with
  | .running => runCycle s
  | .waitingForKey => .next (retireKeyWait s)
  | .halted _ => .next s

/-! ## The other events -/

/-- A timer counts down by 1 and stops at 0 (R220). -/
def countDown (t : Byte) : Byte := if t = 0 then 0 else t - 1

/-- The `tick` event, in every run state (R220). -/
def tick (s : State) : State := { s with dt := countDown s.dt, st := countDown s.st }

/-- A release that qualifies: the core waits and the key goes from pressed to released (R221). -/
def qualifies (k : KeyNum) (down : Bool) (s : State) : Bool :=
  (s.runState == .waitingForKey) && key s k && !down

/-- The `set_pressed(k, b)` event (R221): latch the key if the event qualifies, then write the flag. -/
def setPressed (k : KeyNum) (down : Bool) (s : State) : State :=
  setKey (if qualifies k down s then { s with latch := some k } else s) k down

/-- The state `init` leaves, the only one in which `load_program` has a meaning (spec/70_reset_and_hazards.md R256).
The model's own fields do not count. DESIGN CHOICE (log 6), safe: R256's "in the state `init` leaves (no `step` taken
since)" is read as equality with the reset state. So with no `step` taken, a `load_program` after a `set_pressed` that
left a key pressed has no move, and one after a `tick`, or after a key pressed and released again, is accepted. -/
def atBoot (s : State) : Bool := s == reinit s

/-- The `load_program(bytes)` event (R254, R255). -/
def loadProgram (bytes : List Byte) (s : State) : Out :=
  if atBoot s then
    if imageWellFormed bytes then .next { s with mem := writeBytes s.mem 0x200 bytes }
    else raise (.programTooLarge bytes.length) s
  else .fault .loadOutsideBoot

/-- What each event does (R5). -/
def handleEvent (e : Event) (s : State) : Out :=
  match e with
  | .init => .next (reinit s)
  | .loadProgram bytes => loadProgram bytes s
  | .step => stepEvent s
  | .tick => .next (tick s)
  | .setPressed k down => .next (setPressed k down s)

/-- One event of the block: the oldest that the environment has issued, or one `step` if there is none (R8; log 3). -/
def nextEvent (s : State) : Out :=
  match s.inputs with
  | [] => stepEvent s
  | e :: rest => handleEvent e { s with inputs := rest }

end Sys2Proof.Machine
end

