-- ==== Sys2Proof/Machine/Outputs.lean ====
section
/-! DEFINITION. The read-only outputs, pure functions of the state (spec/00_scope.md R7), and the status registers
of spec/10_state.md R36 with the codes of spec/60_exceptions.md R200. `fb` and `ST` are the fields themselves. -/
namespace Sys2Proof.Machine

/-- `sound_active = (ST != 0)` (R7). -/
def soundActive (s : State) : Bool := s.st != 0

/-- `is_pressed(k) = keys[k]` (R7). -/
def isPressed (s : State) (k : KeyNum) : Bool := key s k

/-- The pixel of a row-major linear index `row * 64 + col` (R31): the index is 11 bits, row the high five. -/
def pixelAtIndex (s : State) (index : BitVec 11) : Bool :=
  pixel s.fb (index.extractLsb' 6 5, index.extractLsb' 0 6)

/-- `run_state` as a 2-bit code: 0 Running, 1 WaitingForKey, 2 Halted (R36, the spec's numbering D23). -/
def runStateCode (s : State) : BitVec 2 :=
  match s.runState with
  | .running => 0
  | .waitingForKey => 1
  | .halted _ => 2

/-- `err_code` of a reason (R200). -/
def reasonCode (r : HaltReason) : BitVec 3 :=
  match r with
  | .unknownInstruction _ _ => 1
  | .memoryOutOfBounds _ => 2
  | .stackOverflow => 3
  | .stackUnderflow => 4
  | .programTooLarge _ => 5

/-- `err_code`: 0 outside `Halted` (R36, R200). -/
def errCode (s : State) : BitVec 3 :=
  match s.runState with
  | .halted r => reasonCode r
  | _ => 0

/-- `err_opcode`, 0 when not valid (R36). -/
def errOpcode (s : State) : Word :=
  match s.runState with
  | .halted (.unknownInstruction op _) => op
  | _ => 0

/-- `err_pc`, 0 when not valid (R36). -/
def errPc (s : State) : Word :=
  match s.runState with
  | .halted (.unknownInstruction _ pc) => pc
  | _ => 0

/-- `err_address`, 0 when not valid (R36). -/
def errAddress (s : State) : Word :=
  match s.runState with
  | .halted (.memoryOutOfBounds a) => a
  | _ => 0

/-- `err_size`, 0 when not valid (R36). -/
def errSize (s : State) : Nat :=
  match s.runState with
  | .halted (.programTooLarge n) => n
  | _ => 0

end Sys2Proof.Machine
end

