-- ==== Sys2Proof/Machine/Step.lean ====
section
/-! DEFINITION. One step of the machine, and the host's way to place an instruction. -/
namespace Sys2Proof.Machine

/-- One event of the block (spec/00_scope.md R5, R8): see `nextEvent`. -/
def step (s : State) : Host.Outcome State Fault Refusal := nextEvent s

/-- `s` with the instruction of table bits `w` stored at PC, high byte first (spec/20_memory.md R67), and ready to
fetch: running, and no other event before the step (log 7). A PC outside the memory has no place for it. -/
def State.withFetchWord (s : State) (nbits w : Nat) : State :=
  let word : Word := BitVec.ofNat 16 (w % 2 ^ nbits)
  { s with
    mem :=
      if rangeError s.pc 2 = none then writeBytes s.mem s.pc.toNat [word.extractLsb' 8 8, word.extractLsb' 0 8]
      else s.mem
    runState := .running
    inputs := [] }

end Sys2Proof.Machine
end

