-- ==== Sys2Proof/Safety.lean ====
section
/-! DEFINITION. The terms claims are made in: what an instruction may change, which errors it may raise, the reset
values, and the invariant of every reachable state. -/
namespace Sys2Proof.Machine

/-! ## Frames -/

/-- What an instruction may change beside the PC: the general registers and memory addresses listed, and the other
pieces of state marked true. The keys and the model's input queue are no instruction's to change (spec/10_state.md
R32), so they have no entry. -/
structure Footprint where
  regs : List RegNum := []
  index : Bool := false
  stack : Bool := false
  delayTimer : Bool := false
  soundTimer : Bool := false
  memory : List Nat := []
  screen : Bool := false
  latch : Bool := false
  run : Bool := false
  draws : Bool := false

/-- `t` differs from `s` only inside the footprint, and in the PC. -/
structure SameOutside (f : Footprint) (s t : State) : Prop where
  regs : ∀ r, r ∉ f.regs → reg t r = reg s r
  index : f.index = false → t.i = s.i
  stack : f.stack = false → t.stack = s.stack ∧ t.sp = s.sp
  delayTimer : f.delayTimer = false → t.dt = s.dt
  soundTimer : f.soundTimer = false → t.st = s.st
  memory : ∀ a, a ∉ f.memory → readByte t.mem a = readByte s.mem a
  screen : f.screen = false → t.fb = s.fb
  keys : t.keys = s.keys
  latch : f.latch = false → t.latch = s.latch
  run : f.run = false → t.runState = s.runState
  inputs : t.inputs = s.inputs
  draws : f.draws = false → t.draws = s.draws

/-- The addresses `base`, `base + 1`, ..., `n` of them. -/
def addressRun (base : Word) (n : Nat) : List Nat := (List.range n).map fun k => base.toNat + k

/-! ## Errors -/

/-- `n` bytes at I do not all lie in the memory (spec/20_memory.md R65). -/
def runsOut (s : State) (n : Nat) : Prop := 0 < n ∧ 0xFFF < s.i.toNat + n - 1

/-- `MemoryOutOfBounds(max(I, 0x1000))` (R65). -/
def outOfBoundsAtI (s : State) : HaltReason := .memoryOutOfBounds (BitVec.ofNat 16 (max s.i.toNat 0x1000))

/-- `e` is the error that the execute phase of `d` raises in `s` (spec/60_exceptions.md R201). -/
def raises (d : Instr) (s : State) (e : HaltReason) : Prop :=
  match d with
  | .call _ => s.sp.val = 16 ∧ e = .stackOverflow
  | .ret => s.sp.val = 0 ∧ e = .stackUnderflow
  | .drw _ _ n => runsOut s n.toNat ∧ e = outOfBoundsAtI s
  | .ldBVx _ => runsOut s 3 ∧ e = outOfBoundsAtI s
  | .ldMemVx x => runsOut s (x.toNat + 1) ∧ e = outOfBoundsAtI s
  | .ldVxMem x => runsOut s (x.toNat + 1) ∧ e = outOfBoundsAtI s
  | _ => False

/-- `s` is `Halted`, for some reason. -/
def isHalted (s : State) : Prop := ∃ r, s.runState = .halted r

/-! ## Sprites -/

/-- The sprite of `n` rows at I, drawn at column Vx and row Vy, covers pixel (row, col) of the display: the pixel is
sprite row `r = (row - Vy) mod 32`, sprite column `c = (col - Vx) mod 64`, inside the sprite, and bit `7 - c` of the
byte at I + r is set (spec/43_display.md R181, R182). -/
def spriteCovers (s : State) (x y : RegNum) (n : Nat) (p : Pixel) : Prop :=
  let r := (p.1.toNat + 32 - (reg s y).toNat % 32) % 32
  let c := (p.2.toNat + 64 - (reg s x).toNat % 64) % 64
  r < n ∧ c < 8 ∧ (readByte s.mem (s.i.toNat + r)).getLsbD (7 - c) = true

/-! ## Reset -/

/-- The values of spec/10_state.md R37, piece by piece. -/
structure ResetValues (s : State) : Prop where
  regs : ∀ r, reg s r = 0
  index : s.i = 0
  pc : s.pc = 0x200
  sp : s.sp = 0
  stack : ∀ j : Fin 16, s.stack[j] = 0
  delayTimer : s.dt = 0
  soundTimer : s.st = 0
  font : ∀ k : Fin 80, readByte s.mem (Config.fontBase.val + k.val) = Config.fontData k
  memory : ∀ a, a ≤ 0xFFF → (a < Config.fontBase.val ∨ Config.fontBase.val + 79 < a) → readByte s.mem a = 0
  screen : ∀ p, pixel s.fb p = false
  keys : ∀ k, key s k = false
  latch : s.latch = none
  run : s.runState = .running
  error : errCode s = 0 ∧ errOpcode s = 0 ∧ errPc s = 0 ∧ errAddress s = 0 ∧ errSize s = 0

/-! ## The invariant -/

/-- What an error record says of the state it was raised in, which `Halted` keeps (R203): the unknown word is no
instruction and PC is where it was fetched, an out-of-range address is above 0xFFF (R65, R202), the stack is full or
empty, the image was too large (R255). -/
def recordFits (s : State) : HaltReason → Prop
  | .unknownInstruction op pc => decode op = none ∧ pc = s.pc
  | .memoryOutOfBounds a => 0x1000 ≤ a.toNat
  | .stackOverflow => s.sp.val = 16
  | .stackUnderflow => s.sp.val = 0
  | .programTooLarge n => 3584 < n

/-- The invariant of every state reachable from `init` (R25, R38): memory in canonical form, no latched key while
running, PC at an FX0A while waiting, PC at most 0x10FE, pushed addresses at most 0x1000, a fitting error record. -/
structure StateInv (s : State) : Prop where
  memory : memoryWf s.mem = true
  latch : s.runState = .running → s.latch = none
  waiting : s.runState = .waitingForKey → ∃ op x, fetch s = .ok op ∧ decode op = some (.ldVxK x)
  pc : s.pc.toNat ≤ 0x10FE
  stack : ∀ j : Fin 16, j.val < s.sp.val → s.stack[j].toNat ≤ 0x1000
  record : ∀ r, s.runState = .halted r → recordFits s r

end Sys2Proof.Machine
end

