-- ==== Sys2Proof/Certificates/Slice0/Obligations.lean ====
section
/-! DEFINITION. The statements about the model, each a Prop to be proved elsewhere. Each docstring names the rule of
the spec it formalises. An instruction's statement says, for every operand and every state: its encoding, that `exec`
answers a next state and where (or which error it takes), the result, and what is unchanged (`SameOutside`, in which
the PC is free). -/
open Sys2Proof Sys2Proof.Machine

/-! ## Encoding -/

/-- Words spelled by the source or by the table of spec/95_test_vectors.md 2.1, one or more of each file of the
instruction set (R92, R97). -/
def Obligations.SpecWordsDecode : Prop :=
  decode 0x00E0 = some .cls ∧ decode 0x6A05 = some (.ldVxNN 0xA 0x05) ∧ decode 0x7A03 = some (.addVxNN 0xA 0x03) ∧
  decode 0x8AB4 = some (.addVxVy 0xA 0xB) ∧ decode 0x2ABC = some (.call 0xABC) ∧
  decode 0xFA33 = some (.ldBVx 0xA) ∧ decode 0xDAB5 = some (.drw 0xA 0xB 5) ∧ decode 0xEAA1 = some (.sknp 0xA) ∧
  decode 0xFA0A = some (.ldVxK 0xA) ∧ decode 0x5121 = none ∧ decode 0x8128 = none ∧ decode 0xE29F = none

/-- Decoding the word of an instruction gives the instruction, with every operand at every value (R93, R97). -/
def Obligations.DecodeOfEncodeIsTheInstruction : Prop := ∀ d : Instr, decode (encode d) = some d

/-- A word that decodes is the word of the instruction it decodes to (R93, R97), so no two words share an
instruction. For 8XY6 and 8XYE, whose Y the hardware ignores (R102, R148, R150), that is the model's choice of log 13:
`Instr` keeps the Y field. -/
def Obligations.EncodeOfDecodeIsTheWord : Prop := ∀ (w : Word) (d : Instr), decode w = some d → encode d = w

/-- R97: the decoder, written by nibbles, gives the instruction of the one row of R96 whose mask and match the word
meets, and rejects exactly the words that meet no row. -/
def Obligations.DecodeIsTheMaskMatchTable : Prop :=
  ∀ w : Word,
    (∀ d, decode w = some d → opcodeTable.filter (hitsRow w) = [opcodeRow d]) ∧
    (decode w = none → opcodeTable.filter (hitsRow w) = [])

/-- R99: of the words with high nibble 0 only 0x00E0 and 0x00EE are instructions, and the all-zero word that empty
memory holds halts the first step after reset with `UnknownInstruction{0x0000, 0x200}`. -/
def Obligations.FamilyZeroHoldsTwoInstructions : Prop :=
  (∀ w : Word, opMajor w = 0 → ((decode w).isSome = true ↔ w = 0x00E0 ∨ w = 0x00EE)) ∧
  step State.reset = .next { State.reset with runState := .halted (.unknownInstruction 0x0000 0x200) }

/-! ## Fetch and the step event -/

/-- R66: the fetch is the big-endian word at PC, whatever the parity of PC, if PC + 1 ≤ 0xFFF; otherwise it is the
error with the lowest address out of range. -/
def Obligations.FetchReadsTheBigEndianWordAtPc : Prop :=
  ∀ s : State,
    (s.pc.toNat + 1 ≤ 0xFFF → ∃ op : Word, fetch s = .ok op ∧
      op.extractLsb' 8 8 = readByte s.mem s.pc.toNat ∧ op.extractLsb' 0 8 = readByte s.mem (s.pc.toNat + 1)) ∧
    (0x1000 ≤ s.pc.toNat → fetch s = .error (.memoryOutOfBounds s.pc)) ∧
    (s.pc = 0xFFF → fetch s = .error (.memoryOutOfBounds 0x1000))

/-- R210, R204: a step in `Running`, with no other event issued, is the fetch error, or the unknown-instruction error
with the word and its PC, or exactly `exec` of the decoded instruction at the same state. -/
def Obligations.StepRunsTheDecodedInstruction : Prop :=
  ∀ s : State, s.runState = .running → s.inputs = [] →
    (∀ e, fetch s = .error e → step s = .next { s with runState := .halted e }) ∧
    (∀ op, fetch s = .ok op → decode op = none →
      step s = .next { s with runState := .halted (.unknownInstruction op s.pc) }) ∧
    (∀ op d, fetch s = .ok op → decode op = some d → step s = exec d s)

/-- The model's queue of events (log 3; R5, R8): the oldest event is served first, by its own meaning, on the state
without it. -/
def Obligations.StepServesTheOldestEvent : Prop :=
  ∀ (s : State) (e : Event) (rest : List Event), s.inputs = e :: rest →
    step s = match e with
      | .init => .next (reinit { s with inputs := rest })
      | .loadProgram bytes => loadProgram bytes { s with inputs := rest }
      | .step => stepEvent { s with inputs := rest }
      | .tick => .next (tick { s with inputs := rest })
      | .setPressed k down => .next (setPressed k down { s with inputs := rest })

/-- R211: a step in `WaitingForKey` retires the suspended instruction if a key is latched, into the register named by
the low nibble of the byte at PC, and changes nothing otherwise. A core waits only with PC inside the memory (R38;
`EveryStepKeepsTheInvariant`); for any other PC the destination is the model's choice (log 8) and not stated. -/
def Obligations.WaitingStepRetiresOrChangesNothing : Prop :=
  ∀ s : State, s.runState = .waitingForKey → s.inputs = [] →
    (s.latch = none → step s = .next s) ∧
    (∀ k : KeyNum, s.latch = some k → ∃ t, step s = .next t ∧
      (∀ x : RegNum, s.pc.toNat ≤ 0xFFF → x.toNat = (readByte s.mem s.pc.toNat).toNat % 16 →
        (reg t x).toNat = k.toNat ∧ SameOutside { regs := [x], latch := true, run := true } s t) ∧
      t.latch = none ∧ t.pc = s.pc + 2 ∧ t.runState = .running)

/-- R212: a step in `Halted` changes nothing. -/
def Obligations.HaltedStepChangesNothing : Prop :=
  ∀ (s : State) (r : HaltReason), s.runState = .halted r → s.inputs = [] → step s = .next s

/-- R267: every event ends with a next state; the one stop is the model's (log 6), a `load_program` issued outside the
state `init` leaves, which has no move (R256). -/
def Obligations.EveryEventEndsWithANextState : Prop :=
  ∀ s : State, (∃ t, step s = .next t) ∨
    ∃ bytes rest, s.inputs = .loadProgram bytes :: rest ∧
      { s with inputs := rest } ≠ reinit { s with inputs := rest } ∧ step s = .fault .loadOutsideBoot

/-! ## The other events -/

/-- R220: a tick takes 1 off each timer that is not 0, the two independent, in every run state, and nothing else; T
ticks leave max(0, V - T). -/
def Obligations.TickCountsDownAndStopsAtZero : Prop :=
  (∀ s : State,
    (tick s).dt = (if s.dt = 0 then 0 else s.dt - 1) ∧ (tick s).st = (if s.st = 0 then 0 else s.st - 1) ∧
    { tick s with dt := s.dt, st := s.st } = s) ∧
  (∀ (s : State) (n : Nat),
    ((tick^[n]) s).dt.toNat = s.dt.toNat - n ∧ ((tick^[n]) s).st.toNat = s.st.toNat - n)

/-- R221: `set_pressed` writes the key flag, and latches the key exactly when the core waits and the key goes from
pressed to released; nothing else changes, and the output `is_pressed` of R7 shows the flag. -/
def Obligations.SetPressedWritesTheFlagAndLatchesReleases : Prop :=
  ∀ (s : State) (k : KeyNum) (down : Bool),
    key (setPressed k down s) k = down ∧
    (∀ j, j ≠ k → key (setPressed k down s) j = key s j) ∧
    (∀ j, isPressed (setPressed k down s) j = if j = k then down else isPressed s j) ∧
    (s.runState = .waitingForKey ∧ key s k = true ∧ down = false → (setPressed k down s).latch = some k) ∧
    (¬ (s.runState = .waitingForKey ∧ key s k = true ∧ down = false) → (setPressed k down s).latch = s.latch) ∧
    { setPressed k down s with keys := s.keys, latch := s.latch } = s

/-- R250: `init`, issued in any state, gives every piece of state the value of R37. -/
def Obligations.InitGivesTheResetValuesFromAnyState : Prop :=
  ∀ s : State, ∃ t, handleEvent .init s = .next t ∧ ResetValues t

/-- R37: the state the machine starts in has those values (V0 to VF, I and the stack 0 by the spec's decisions D19 and
D20, log 4). -/
def Obligations.ResetStateHasTheResetValues : Prop := ResetValues State.reset

/-- R254, R255: `load_program`, in the state `init` leaves, copies an image of at most 3584 bytes to 0x200 and
changes nothing else; a longer image halts with its size, memory untouched. -/
def Obligations.LoadProgramCopiesTheImageTo0x200 : Prop :=
  ∀ (s : State) (bytes : List Byte), s = reinit s →
    (bytes.length ≤ 3584 → ∃ t, loadProgram bytes s = .next t ∧
      (∀ k, k < bytes.length → readByte t.mem (0x200 + k) = bytes.getD k 0) ∧
      (∀ a, a < 0x200 ∨ 0x200 + bytes.length ≤ a → readByte t.mem a = readByte s.mem a) ∧
      { t with mem := s.mem } = s) ∧
    (3584 < bytes.length →
      loadProgram bytes s = .next { s with runState := .halted (.programTooLarge bytes.length) })

/-- The model's choice (log 6) for what R256 gives no meaning: a `load_program` in any other state stops. -/
def Obligations.LateLoadProgramHasNoMove : Prop :=
  ∀ (s : State) (bytes : List Byte), s ≠ reinit s → loadProgram bytes s = .fault .loadOutsideBoot

/-- Of the events only `step` and `init` write a general register (R20), the PC (R207), I (R26), the stack or SP (R27)
or the display (R31): `tick`, `set_pressed` and `load_program` write none of them (R220, R221, R254, R255). -/
def Obligations.OnlyStepAndInitWriteRegistersAndPc : Prop :=
  ∀ (s t : State) (e : Event), e ≠ .step → e ≠ .init → handleEvent e s = .next t →
    t.v = s.v ∧ t.pc = s.pc ∧ t.i = s.i ∧ t.stack = s.stack ∧ t.sp = s.sp ∧ t.fb = s.fb

/-! ## The run state and errors -/

/-- The transitions of `run_state`, event by event, as the table of R205 lists them. That a `load_program` which
answers a next state started in `Running` is no row of that table: it is the model's choice of log 6, a late
`load_program` has no move (R256). -/
def Obligations.RunStateFollowsTheTransitionTable : Prop :=
  ∀ (s t : State) (e : Event), handleEvent e s = .next t →
    (e = .init → t.runState = .running) ∧
    (∀ bytes, e = .loadProgram bytes → s.runState = .running ∧
      t.runState = if bytes.length ≤ 3584 then .running else .halted (.programTooLarge bytes.length)) ∧
    (e = .tick → t.runState = s.runState) ∧
    (∀ k down, e = .setPressed k down → t.runState = s.runState) ∧
    (∀ r, e = .step → s.runState = .halted r → t.runState = .halted r) ∧
    (∀ k, e = .step → s.runState = .waitingForKey → s.latch = some k → t.runState = .running) ∧
    (e = .step → s.runState = .waitingForKey → s.latch = none → t.runState = .waitingForKey) ∧
    (e = .step → s.runState = .running →
      (∀ r, fetch s = .error r → t.runState = .halted r) ∧
      (∀ op, fetch s = .ok op → decode op = none → t.runState = .halted (.unknownInstruction op s.pc)) ∧
      (∀ op d, fetch s = .ok op → decode op = some d →
        (∀ r, raises d s r → t.runState = .halted r) ∧
        ((∀ r, ¬ raises d s r) →
          (∀ x, d = .ldVxK x → t.runState = .waitingForKey) ∧
          ((∀ x, d ≠ .ldVxK x) → t.runState = .running))))

/-- R201: in the execute phase an instruction raises exactly the listed error, exactly under the listed condition,
with no other effect, and otherwise `exec` answers a next state that is not halted by it. -/
def Obligations.ExecRaisesExactlyTheListedErrors : Prop :=
  ∀ (d : Instr) (s : State),
    (∀ e, raises d s e → exec d s = .next { s with runState := .halted e }) ∧
    ((∀ e, ¬ raises d s e) → ∃ t, exec d s = .next t ∧ (t.runState = s.runState ∨ t.runState = .waitingForKey))

/-- R203: a step in `Running` that ends in `Halted` has changed the run state and nothing else. -/
def Obligations.FaultsArePrecise : Prop :=
  ∀ (s t : State) (e : HaltReason), s.runState = .running → s.inputs = [] → step s = .next t →
    t.runState = .halted e → t = { s with runState := .halted e }

/-- R206: `Halted` is terminal: whatever event comes, the reason is kept, and only `init` leaves it. -/
def Obligations.HaltedIsLeftOnlyByInit : Prop :=
  ∀ (s t : State) (r : HaltReason), s.runState = .halted r → step s = .next t →
    t.runState = .halted r ∨ ∃ rest, s.inputs = .init :: rest

/-- The status registers of R36 in every run state: the code of `run_state` (0, 1, 2), `err_code` by reason (R200), and
the recorded fields. That a register which is not valid, all of them outside `Halted` included, reads 0 is the model's
reading of log 16: the registers are views of the reason. -/
def Obligations.StatusRegistersShowTheErrorRecord : Prop :=
  ∀ s : State,
    (s.runState = .running → runStateCode s = 0) ∧ (s.runState = .waitingForKey → runStateCode s = 1) ∧
    (isHalted s → runStateCode s = 2) ∧
    (¬ isHalted s → errCode s = 0 ∧ errOpcode s = 0 ∧ errPc s = 0 ∧ errAddress s = 0 ∧ errSize s = 0) ∧
    (∀ op pc, s.runState = .halted (.unknownInstruction op pc) →
      errCode s = 1 ∧ errOpcode s = op ∧ errPc s = pc ∧ errAddress s = 0 ∧ errSize s = 0) ∧
    (∀ a, s.runState = .halted (.memoryOutOfBounds a) →
      errCode s = 2 ∧ errAddress s = a ∧ errOpcode s = 0 ∧ errPc s = 0 ∧ errSize s = 0) ∧
    (s.runState = .halted .stackOverflow →
      errCode s = 3 ∧ errOpcode s = 0 ∧ errPc s = 0 ∧ errAddress s = 0 ∧ errSize s = 0) ∧
    (s.runState = .halted .stackUnderflow →
      errCode s = 4 ∧ errOpcode s = 0 ∧ errPc s = 0 ∧ errAddress s = 0 ∧ errSize s = 0) ∧
    (∀ n, s.runState = .halted (.programTooLarge n) →
      errCode s = 5 ∧ errSize s = n ∧ errOpcode s = 0 ∧ errPc s = 0 ∧ errAddress s = 0)

/-! ## Invariants and whole-machine rules -/

/-- The invariant holds in the state `init` leaves (derived from R25, R38, R122, R202; the canonical form of memory is
the model's own, log 5). -/
def Obligations.ResetMeetsTheInvariant : Prop := StateInv State.reset

/-- Every event keeps the invariant, from every state that meets it: memory canonical, latch empty while running, PC
at an FX0A while waiting, PC ≤ 0x10FE, pushed addresses ≤ 0x1000, fitting error record (derived from R25, R38, R122,
R202; the canonical form is the model's own, log 5). -/
def Obligations.EveryStepKeepsTheInvariant : Prop := ∀ s t : State, StateInv s → step s = .next t → StateInv t

/-- R31: pixel (row, col) has the row-major linear index row * 64 + col, and of the instructions only CLS and DRW
change the display. -/
def Obligations.OnlyClsAndDrwChangeTheDisplay : Prop :=
  (∀ (s : State) (p : Pixel),
    pixelAtIndex s (BitVec.ofNat 11 (p.1.toNat * 64 + p.2.toNat)) = pixel s.fb p) ∧
  ∀ (d : Instr) (s t : State), exec d s = .next t →
    t.fb = s.fb ∨ d = .cls ∨ ∃ x y n, d = .drw x y n

/-- R26: I is written by ANNN, FX1E and FX29 and by nothing else. -/
def Obligations.OnlyThreeInstructionsWriteI : Prop :=
  ∀ (d : Instr) (s t : State), exec d s = .next t →
    t.i = s.i ∨ (∃ nnn, d = .ldI nnn) ∨ (∃ x, d = .addIVx x) ∨ ∃ x, d = .ldFVx x

/-- R27: only CALL and RET touch the stack and SP. -/
def Obligations.OnlyCallAndRetTouchTheStack : Prop :=
  ∀ (d : Instr) (s t : State), exec d s = .next t →
    (t.stack = s.stack ∧ t.sp = s.sp) ∨ d = .ret ∨ ∃ nnn, d = .call nnn

/-- R29: of the instructions only FX33 and FX55 write memory, and only bytes of the run at I. -/
def Obligations.OnlyTheStoresWriteMemory : Prop :=
  ∀ (d : Instr) (s t : State) (a : Nat), exec d s = .next t → readByte t.mem a ≠ readByte s.mem a →
    (∃ x, d = .ldBVx x ∧ s.i.toNat ≤ a ∧ a < s.i.toNat + 3 ∧ a ≤ 0xFFF) ∨
    (∃ x, d = .ldMemVx x ∧ s.i.toNat ≤ a ∧ a ≤ s.i.toNat + x.toNat ∧ a ≤ 0xFFF)

/-- R32, R28: no instruction writes a key flag; DT is written by FX15 only, ST by FX18 only. -/
def Obligations.InstructionsLeaveKeysAndTimers : Prop :=
  ∀ (d : Instr) (s t : State), exec d s = .next t →
    (∀ k, key t k = key s k) ∧ (t.dt = s.dt ∨ ∃ x, d = .ldDtVx x) ∧ (t.st = s.st ∨ ∃ x, d = .ldStVx x)

/-- R21: the six flag instructions leave 0 or 1 in VF when they complete; every other instruction changes VF only as
its ordinary destination, X = 15. -/
def Obligations.VfIsWrittenAsAFlagBySixInstructions : Prop :=
  ∀ (d : Instr) (s t : State), exec d s = .next t → (∀ e, ¬ raises d s e) →
    (((∃ x y, d = .addVxVy x y ∨ d = .subVxVy x y ∨ d = .shrVx x y ∨ d = .subnVxVy x y ∨ d = .shlVx x y) ∨
      (∃ x y n, d = .drw x y n)) → reg t VF = 0 ∨ reg t VF = 1) ∧
    (reg t VF ≠ reg s VF →
      (∃ x y, d = .addVxVy x y ∨ d = .subVxVy x y ∨ d = .shrVx x y ∨ d = .subnVxVy x y ∨ d = .shlVx x y) ∨
      (∃ x y n, d = .drw x y n) ∨
      (∃ nn, d = .ldVxNN VF nn ∨ d = .addVxNN VF nn ∨ d = .rnd VF nn) ∨
      (∃ y, d = .ldVxVy VF y ∨ d = .orVxVy VF y ∨ d = .andVxVy VF y ∨ d = .xorVxVy VF y) ∨
      d = .ldVxDt VF ∨ d = .ldVxMem VF)

/-! ## Control flow -/

/-- R120. -/
def Obligations.JpGoesToTheAddress : Prop :=
  ∀ (nnn : BitVec 12) (s : State), decode (0x1#4 ++ nnn) = some (.jp nnn) ∧
    ∃ t, exec (.jp nnn) s = .next t ∧ t.pc.toNat = nnn.toNat ∧ SameOutside {} s t

/-- R121. -/
def Obligations.CallPushesTheReturnAddressOrOverflows : Prop :=
  ∀ (nnn : BitVec 12) (s : State), decode (0x2#4 ++ nnn) = some (.call nnn) ∧
    (s.sp.val = 16 → exec (.call nnn) s = .next { s with runState := .halted .stackOverflow }) ∧
    (s.sp.val < 16 → ∃ t, exec (.call nnn) s = .next t ∧
      (∀ j : Fin 16, t.stack[j] = if j.val = s.sp.val then s.pc + 2 else s.stack[j]) ∧
      t.sp.val = s.sp.val + 1 ∧ t.pc.toNat = nnn.toNat ∧ SameOutside { stack := true } s t)

/-- R122. -/
def Obligations.RetPopsTheReturnAddressOrUnderflows : Prop :=
  ∀ s : State, decode 0x00EE = some .ret ∧
    (s.sp.val = 0 → exec .ret s = .next { s with runState := .halted .stackUnderflow }) ∧
    (∀ j : Fin 16, s.sp.val = j.val + 1 → ∃ t, exec .ret s = .next t ∧
      t.pc = s.stack[j] ∧ t.sp.val = j.val ∧ t.stack = s.stack ∧ SameOutside { stack := true } s t)

/-- The stack property of the source (R121; spec/95_test_vectors.md INV4): a call followed at once by a return
restores PC to the instruction after the call and SP to its value before the call; of the rest of the state only the
entry at SP has changed, which keeps the return address. -/
def Obligations.CallThenRetComesBack : Prop :=
  ∀ (nnn : BitVec 12) (s : State), s.sp.val < 16 →
    ∃ t u, exec (.call nnn) s = .next t ∧ exec .ret t = .next u ∧
      u.pc = s.pc + 2 ∧ u.sp = s.sp ∧
      (∀ j : Fin 16, u.stack[j] = if j.val = s.sp.val then s.pc + 2 else s.stack[j]) ∧
      SameOutside { stack := true } s u

/-- R123: the sum is not masked to 12 bits. -/
def Obligations.JpV0GoesToTheAddressPlusV0 : Prop :=
  ∀ (nnn : BitVec 12) (s : State), decode (0xB#4 ++ nnn) = some (.jpV0 nnn) ∧
    ∃ t, exec (.jpV0 nnn) s = .next t ∧ t.pc.toNat = nnn.toNat + (reg s 0).toNat ∧ SameOutside {} s t

/-- R124, R125: a taken skip is PC + 4, otherwise PC + 2. -/
def Obligations.ImmediateSkipsCompareVxWithNn : Prop :=
  ∀ (x : RegNum) (nn : Byte) (s : State),
    decode (0x3#4 ++ x ++ nn) = some (.seVxNN x nn) ∧ decode (0x4#4 ++ x ++ nn) = some (.sneVxNN x nn) ∧
    (∃ t, exec (.seVxNN x nn) s = .next t ∧
      t.pc = (if reg s x = nn then s.pc + 4 else s.pc + 2) ∧ SameOutside {} s t) ∧
    (∃ t, exec (.sneVxNN x nn) s = .next t ∧
      t.pc = (if reg s x ≠ nn then s.pc + 4 else s.pc + 2) ∧ SameOutside {} s t)

/-- R126, R127; a word 5XYN or 9XYN with N ≠ 0 is unknown. -/
def Obligations.RegisterSkipsCompareVxWithVy : Prop :=
  ∀ (x y : RegNum) (s : State),
    (∀ n : BitVec 4, decode (0x5#4 ++ x ++ y ++ n) = (if n = 0 then some (.seVxVy x y) else none)) ∧
    (∀ n : BitVec 4, decode (0x9#4 ++ x ++ y ++ n) = (if n = 0 then some (.sneVxVy x y) else none)) ∧
    (∃ t, exec (.seVxVy x y) s = .next t ∧
      t.pc = (if reg s x = reg s y then s.pc + 4 else s.pc + 2) ∧ SameOutside {} s t) ∧
    (∃ t, exec (.sneVxVy x y) s = .next t ∧
      t.pc = (if reg s x ≠ reg s y then s.pc + 4 else s.pc + 2) ∧ SameOutside {} s t)

/-- R227(b): a jump to itself is a fixed point of the step. -/
def Obligations.SelfJumpLeavesTheWholeState : Prop :=
  ∀ (nnn : BitVec 12) (s : State), s.runState = .running → s.inputs = [] → s.pc.toNat = nnn.toNat →
    fetch s = .ok (0x1#4 ++ nnn) → step s = .next s

/-! ## Registers and ALU -/

/-- R140. -/
def Obligations.LdVxNnLoadsTheImmediate : Prop :=
  ∀ (x : RegNum) (nn : Byte) (s : State), decode (0x6#4 ++ x ++ nn) = some (.ldVxNN x nn) ∧
    ∃ t, exec (.ldVxNN x nn) s = .next t ∧ reg t x = nn ∧ t.pc = s.pc + 2 ∧ SameOutside { regs := [x] } s t

/-- R141: the sum wraps and no flag is written. -/
def Obligations.AddVxNnWrapsWithoutAFlag : Prop :=
  ∀ (x : RegNum) (nn : Byte) (s : State), decode (0x7#4 ++ x ++ nn) = some (.addVxNN x nn) ∧
    ∃ t, exec (.addVxNN x nn) s = .next t ∧ (reg t x).toNat = ((reg s x).toNat + nn.toNat) % 256 ∧
      t.pc = s.pc + 2 ∧ SameOutside { regs := [x] } s t

/-- R142. -/
def Obligations.LdVxVyCopiesTheRegister : Prop :=
  ∀ (x y : RegNum) (s : State), decode (0x8#4 ++ x ++ y ++ 0x0#4) = some (.ldVxVy x y) ∧
    ∃ t, exec (.ldVxVy x y) s = .next t ∧ reg t x = reg s y ∧ t.pc = s.pc + 2 ∧ SameOutside { regs := [x] } s t

/-- R143, R144, R145: bit by bit, VF not written unless it is Vx. -/
def Obligations.LogicIsBitwiseAndLeavesVf : Prop :=
  ∀ (x y : RegNum) (s : State),
    decode (0x8#4 ++ x ++ y ++ 0x1#4) = some (.orVxVy x y) ∧
    decode (0x8#4 ++ x ++ y ++ 0x2#4) = some (.andVxVy x y) ∧
    decode (0x8#4 ++ x ++ y ++ 0x3#4) = some (.xorVxVy x y) ∧
    (∃ t, exec (.orVxVy x y) s = .next t ∧
      (∀ k, (reg t x).getLsbD k = ((reg s x).getLsbD k || (reg s y).getLsbD k)) ∧
      t.pc = s.pc + 2 ∧ SameOutside { regs := [x] } s t) ∧
    (∃ t, exec (.andVxVy x y) s = .next t ∧
      (∀ k, (reg t x).getLsbD k = ((reg s x).getLsbD k && (reg s y).getLsbD k)) ∧
      t.pc = s.pc + 2 ∧ SameOutside { regs := [x] } s t) ∧
    (∃ t, exec (.xorVxVy x y) s = .next t ∧
      (∀ k, (reg t x).getLsbD k = ((reg s x).getLsbD k ^^ (reg s y).getLsbD k)) ∧
      t.pc = s.pc + 2 ∧ SameOutside { regs := [x] } s t)

/-- R146: VF gets the carry after the result, so with x = 15 the carry is what VF holds. -/
def Obligations.AddVxVySetsTheCarryLast : Prop :=
  ∀ (x y : RegNum) (s : State), decode (0x8#4 ++ x ++ y ++ 0x4#4) = some (.addVxVy x y) ∧
    ∃ t, exec (.addVxVy x y) s = .next t ∧
      (x ≠ VF → (reg t x).toNat = ((reg s x).toNat + (reg s y).toNat) % 256) ∧
      reg t VF = (if (reg s x).toNat + (reg s y).toNat > 255 then 1 else 0) ∧
      t.pc = s.pc + 2 ∧ SameOutside { regs := [x, VF] } s t

/-- R147, R149: VF is 1 for no borrow, equality included, written last. -/
def Obligations.SubAndSubnSetNoBorrowLast : Prop :=
  ∀ (x y : RegNum) (s : State),
    decode (0x8#4 ++ x ++ y ++ 0x5#4) = some (.subVxVy x y) ∧
    decode (0x8#4 ++ x ++ y ++ 0x7#4) = some (.subnVxVy x y) ∧
    (∃ t, exec (.subVxVy x y) s = .next t ∧
      (x ≠ VF → ((reg t x).toNat : Int) = ((reg s x).toNat - (reg s y).toNat : Int) % 256) ∧
      reg t VF = (if (reg s x).toNat ≥ (reg s y).toNat then 1 else 0) ∧
      t.pc = s.pc + 2 ∧ SameOutside { regs := [x, VF] } s t) ∧
    (∃ t, exec (.subnVxVy x y) s = .next t ∧
      (x ≠ VF → ((reg t x).toNat : Int) = ((reg s y).toNat - (reg s x).toNat : Int) % 256) ∧
      reg t VF = (if (reg s y).toNat ≥ (reg s x).toNat then 1 else 0) ∧
      t.pc = s.pc + 2 ∧ SameOutside { regs := [x, VF] } s t)

/-- R148, R150: Vx is shifted by one, VF gets the bit shifted out, last; Vy is ignored. -/
def Obligations.ShiftsMoveVxAndSetTheBitShiftedOut : Prop :=
  ∀ (x y : RegNum) (s : State),
    decode (0x8#4 ++ x ++ y ++ 0x6#4) = some (.shrVx x y) ∧ decode (0x8#4 ++ x ++ y ++ 0xE#4) = some (.shlVx x y) ∧
    (∃ t, exec (.shrVx x y) s = .next t ∧
      (x ≠ VF → (reg t x).toNat = (reg s x).toNat / 2) ∧ (reg t VF).toNat = (reg s x).toNat % 2 ∧
      t.pc = s.pc + 2 ∧ SameOutside { regs := [x, VF] } s t) ∧
    (∃ t, exec (.shlVx x y) s = .next t ∧
      (x ≠ VF → (reg t x).toNat = 2 * (reg s x).toNat % 256) ∧ (reg t VF).toNat = (reg s x).toNat / 128 ∧
      t.pc = s.pc + 2 ∧ SameOutside { regs := [x, VF] } s t)

/-- R152, with `rnd` the free value of log 2: Vx gets the drawn byte and NN, so no bit outside NN. -/
def Obligations.RndMasksTheDrawnByte : Prop :=
  ∀ (x : RegNum) (nn : Byte) (s : State), decode (0xC#4 ++ x ++ nn) = some (.rnd x nn) ∧
    ∃ t, exec (.rnd x nn) s = .next t ∧ reg t x = Config.freeRnd s.draws &&& nn ∧ reg t x &&& ~~~nn = 0 ∧
      t.draws = s.draws + 1 ∧ t.pc = s.pc + 2 ∧ SameOutside { regs := [x], draws := true } s t

/-! ## Index register and memory -/

/-- R160, R161: I holds all 16 bits, wraps modulo 65536, and VF is not written. -/
def Obligations.LdIAndAddIWriteTheIndex : Prop :=
  ∀ (nnn : BitVec 12) (x : RegNum) (s : State),
    decode (0xA#4 ++ nnn) = some (.ldI nnn) ∧ decode (0xF#4 ++ x ++ 0x1E#8) = some (.addIVx x) ∧
    (∃ t, exec (.ldI nnn) s = .next t ∧ t.i.toNat = nnn.toNat ∧ t.pc = s.pc + 2 ∧
      SameOutside { index := true } s t) ∧
    (∃ t, exec (.addIVx x) s = .next t ∧ t.i.toNat = (s.i.toNat + (reg s x).toNat) % 65536 ∧
      t.pc = s.pc + 2 ∧ SameOutside { index := true } s t)

/-- R162: the glyph address of the low nibble of Vx. -/
def Obligations.LdFGivesTheGlyphAddress : Prop :=
  ∀ (x : RegNum) (s : State), decode (0xF#4 ++ x ++ 0x29#8) = some (.ldFVx x) ∧
    ∃ t, exec (.ldFVx x) s = .next t ∧ t.i.toNat = Config.fontBase.val + 5 * ((reg s x).toNat % 16) ∧
      t.pc = s.pc + 2 ∧ SameOutside { index := true } s t

/-- R163: hundreds, tens, ones at I, I + 1, I + 2, or the error with no byte written. -/
def Obligations.LdBStoresThreeDecimalDigits : Prop :=
  ∀ (x : RegNum) (s : State), decode (0xF#4 ++ x ++ 0x33#8) = some (.ldBVx x) ∧
    (s.i.toNat + 2 > 0xFFF → exec (.ldBVx x) s = .next { s with runState := .halted (outOfBoundsAtI s) }) ∧
    (s.i.toNat + 2 ≤ 0xFFF → ∃ t, exec (.ldBVx x) s = .next t ∧
      (readByte t.mem s.i.toNat).toNat = (reg s x).toNat / 100 ∧
      (readByte t.mem (s.i.toNat + 1)).toNat = (reg s x).toNat / 10 % 10 ∧
      (readByte t.mem (s.i.toNat + 2)).toNat = (reg s x).toNat % 10 ∧
      t.pc = s.pc + 2 ∧ SameOutside { memory := addressRun s.i 3 } s t)

/-- R164: V0 to VX at I to I + X, or the error with no byte written. -/
def Obligations.DumpStoresV0ToVx : Prop :=
  ∀ (x : RegNum) (s : State), decode (0xF#4 ++ x ++ 0x55#8) = some (.ldMemVx x) ∧
    (s.i.toNat + x.toNat > 0xFFF →
      exec (.ldMemVx x) s = .next { s with runState := .halted (outOfBoundsAtI s) }) ∧
    (s.i.toNat + x.toNat ≤ 0xFFF → ∃ t, exec (.ldMemVx x) s = .next t ∧
      (∀ r : RegNum, r ≤ x → readByte t.mem (s.i.toNat + r.toNat) = reg s r) ∧
      t.pc = s.pc + 2 ∧ SameOutside { memory := addressRun s.i (x.toNat + 1) } s t)

/-- R165: V0 to VX from I to I + X, the registers above VX unchanged, or the error with no register loaded. -/
def Obligations.LoadReadsV0ToVx : Prop :=
  ∀ (x : RegNum) (s : State), decode (0xF#4 ++ x ++ 0x65#8) = some (.ldVxMem x) ∧
    (s.i.toNat + x.toNat > 0xFFF →
      exec (.ldVxMem x) s = .next { s with runState := .halted (outOfBoundsAtI s) }) ∧
    (s.i.toNat + x.toNat ≤ 0xFFF → ∃ t, exec (.ldVxMem x) s = .next t ∧
      (∀ r : RegNum, reg t r = if r ≤ x then readByte s.mem (s.i.toNat + r.toNat) else reg s r) ∧
      t.pc = s.pc + 2 ∧ SameOutside { regs := (List.range (x.toNat + 1)).map (BitVec.ofNat 4) } s t)

/-- R74: a store is seen by the very next fetch: FX55 with I just after itself makes V0 and V1 the next opcode. -/
def Obligations.NextFetchSeesTheStore : Prop :=
  ∀ (x : RegNum) (s : State), 1 ≤ x.toNat → s.i.toNat = s.pc.toNat + 2 → s.i.toNat + x.toNat ≤ 0xFFF →
    ∃ t, exec (.ldMemVx x) s = .next t ∧ fetch t = .ok (reg s 0 ++ reg s 1)

/-! ## Display -/

/-- R180. -/
def Obligations.ClsClearsEveryPixel : Prop :=
  ∀ s : State, decode 0x00E0 = some .cls ∧
    ∃ t, exec .cls s = .next t ∧ (∀ p, pixel t.fb p = false) ∧ t.pc = s.pc + 2 ∧
      SameOutside { screen := true } s t

/-- R181, R182: every pixel the sprite covers is flipped, the others stay; VF is 1 exactly when a covered pixel was
set; or the error with no pixel changed. N = 0 covers nothing and cannot fail (R183). -/
def Obligations.DrwXorsTheSpriteAndReportsCollision : Prop :=
  ∀ (x y : RegNum) (n : BitVec 4) (s : State), decode (0xD#4 ++ x ++ y ++ n) = some (.drw x y n) ∧
    (n ≠ 0 → s.i.toNat + n.toNat - 1 > 0xFFF →
      exec (.drw x y n) s = .next { s with runState := .halted (outOfBoundsAtI s) }) ∧
    (n = 0 ∨ s.i.toNat + n.toNat - 1 ≤ 0xFFF → ∃ t, exec (.drw x y n) s = .next t ∧
      (∀ p, (spriteCovers s x y n.toNat p → pixel t.fb p = !pixel s.fb p) ∧
        (¬ spriteCovers s x y n.toNat p → pixel t.fb p = pixel s.fb p)) ∧
      ((∃ p, spriteCovers s x y n.toNat p ∧ pixel s.fb p = true) → reg t VF = 1) ∧
      ((∀ p, spriteCovers s x y n.toNat p → pixel s.fb p = false) → reg t VF = 0) ∧
      t.pc = s.pc + 2 ∧ SameOutside { regs := [VF], screen := true } s t)

/-- R183(d): drawing the same sprite twice restores the display; on a clear display the first draw gives VF = 0 and
the second VF = 1 if the sprite has a set bit. -/
def Obligations.DrawingTwiceRestoresTheDisplay : Prop :=
  ∀ (x y : RegNum) (n : BitVec 4) (s : State), x ≠ VF → y ≠ VF → (n = 0 ∨ s.i.toNat + n.toNat - 1 ≤ 0xFFF) →
    ∃ t u, exec (.drw x y n) s = .next t ∧ exec (.drw x y n) t = .next u ∧ u.fb = s.fb ∧
      (reg u VF = 1 ↔ ∃ p, spriteCovers s x y n.toNat p ∧ pixel t.fb p = true) ∧
      ((∀ p, pixel s.fb p = false) →
        reg t VF = 0 ∧ (reg u VF = 1 ↔ ∃ p, spriteCovers s x y n.toNat p))

/-! ## Keypad and timers -/

/-- R190, R191: the low nibble of Vx selects the key, whose flag is the one the output `is_pressed` of R7 shows. -/
def Obligations.KeySkipsTestTheKeyOfVx : Prop :=
  ∀ (x : RegNum) (k : KeyNum) (s : State), k.toNat = (reg s x).toNat % 16 →
    decode (0xE#4 ++ x ++ 0x9E#8) = some (.skp x) ∧ decode (0xE#4 ++ x ++ 0xA1#8) = some (.sknp x) ∧
    isPressed s k = key s k ∧
    (∃ t, exec (.skp x) s = .next t ∧ t.pc = (if key s k = true then s.pc + 4 else s.pc + 2) ∧
      SameOutside {} s t) ∧
    (∃ t, exec (.sknp x) s = .next t ∧ t.pc = (if key s k = false then s.pc + 4 else s.pc + 2) ∧
      SameOutside {} s t)

/-- R193, R194, R195. -/
def Obligations.TimerInstructionsMoveTheTimers : Prop :=
  ∀ (x : RegNum) (s : State),
    decode (0xF#4 ++ x ++ 0x07#8) = some (.ldVxDt x) ∧ decode (0xF#4 ++ x ++ 0x15#8) = some (.ldDtVx x) ∧
    decode (0xF#4 ++ x ++ 0x18#8) = some (.ldStVx x) ∧
    (∃ t, exec (.ldVxDt x) s = .next t ∧ reg t x = s.dt ∧ t.pc = s.pc + 2 ∧ SameOutside { regs := [x] } s t) ∧
    (∃ t, exec (.ldDtVx x) s = .next t ∧ t.dt = reg s x ∧ t.pc = s.pc + 2 ∧
      SameOutside { delayTimer := true } s t) ∧
    (∃ t, exec (.ldStVx x) s = .next t ∧ t.st = reg s x ∧ (soundActive t = true ↔ reg s x ≠ 0) ∧
      t.pc = s.pc + 2 ∧ SameOutside { soundTimer := true } s t)

/-- R192, first part: the latch is emptied and the core waits, PC and Vx unchanged. -/
def Obligations.LdVxKSuspends : Prop :=
  ∀ (x : RegNum) (s : State), decode (0xF#4 ++ x ++ 0x0A#8) = some (.ldVxK x) ∧
    ∃ t, exec (.ldVxK x) s = .next t ∧ t.latch = none ∧ t.runState = .waitingForKey ∧ t.pc = s.pc ∧
      SameOutside { latch := true, run := true } s t

/-- R192, both parts, the source's Scenario 5 for every key and register: the wait, a press, a release and the next
step deliver the key number to Vx. The four events come through the model's queue (log 3). -/
def Obligations.KeyWaitDeliversTheReleasedKey : Prop :=
  ∀ (s : State) (op : Word) (x : RegNum) (k : KeyNum), s.runState = .running →
    s.inputs = [.step, .setPressed k true, .setPressed k false, .step] →
    fetch s = .ok op → decode op = some (.ldVxK x) →
    ∃ t, Host.Core.run core 4 s = .next t ∧ (reg t x).toNat = k.toNat ∧ (∀ r, r ≠ x → reg t r = reg s r) ∧
      t.pc = s.pc + 2 ∧ t.runState = .running ∧ t.latch = none ∧ t.inputs = [] ∧ key t k = false ∧
      (∀ j, j ≠ k → key t j = key s j) ∧ t.i = s.i ∧ t.mem = s.mem ∧ t.fb = s.fb ∧ t.dt = s.dt ∧ t.st = s.st
end

