-- ==== Sys2Proof/Laws/Decode.lean ====
section
/-! SUPPORT. Fields of composed words: a word put together from fields by the formats of spec/30_encoding.md R93
gives those fields back, and every word is put together from its own fields. -/
namespace Sys2Proof

/-! ## Format A -/

@[simp] theorem opMajor_formatA (a : BitVec 4) (nnn : BitVec 12) : opMajor (a ++ nnn) = a := BitVec.extractLsb'_append_eq_left
@[simp] theorem opNNN_formatA (a : BitVec 4) (nnn : BitVec 12) : opNNN (a ++ nnn) = nnn := BitVec.extractLsb'_append_eq_right

/-! ## Formats I and U -/

@[simp] theorem opX_formatI (a : BitVec 4) (x : RegNum) (nn : Byte) : opX (a ++ x ++ nn) = x :=
  (@BitVec.extractLsb'_append_eq_ite (4 + 4) 8 (a ++ x) nn 8 4).trans (by simpa using BitVec.extractLsb'_append_eq_right (a := a) (b := x))

@[simp] theorem opMajor_formatI (a : BitVec 4) (x : RegNum) (nn : Byte) : opMajor (a ++ x ++ nn) = a :=
  (@BitVec.extractLsb'_append_eq_ite (4 + 4) 8 (a ++ x) nn 12 4).trans (by simpa using BitVec.extractLsb'_append_eq_left (a := a) (b := x))

@[simp] theorem opNN_formatI (a : BitVec 4) (x : RegNum) (nn : Byte) : opNN (a ++ x ++ nn) = nn :=
  BitVec.extractLsb'_append_eq_right (a := a ++ x) (b := nn)

/-! ## Formats R and D -/

@[simp] theorem opMajor_formatR (a : BitVec 4) (x y : RegNum) (n : BitVec 4) : opMajor (a ++ x ++ y ++ n) = a :=
  (@BitVec.extractLsb'_append_eq_ite (4 + 4 + 4) 4 (a ++ x ++ y) n 12 4).trans (by
    simpa using (@BitVec.extractLsb'_append_eq_ite (4 + 4) 4 (a ++ x) y 8 4).trans (by
      simpa using BitVec.extractLsb'_append_eq_left (a := a) (b := x)))

@[simp] theorem opX_formatR (a : BitVec 4) (x y : RegNum) (n : BitVec 4) : opX (a ++ x ++ y ++ n) = x :=
  (@BitVec.extractLsb'_append_eq_ite (4 + 4 + 4) 4 (a ++ x ++ y) n 8 4).trans (by
    simpa using (@BitVec.extractLsb'_append_eq_ite (4 + 4) 4 (a ++ x) y 4 4).trans (by
      simpa using BitVec.extractLsb'_append_eq_right (a := a) (b := x)))

@[simp] theorem opY_formatR (a : BitVec 4) (x y : RegNum) (n : BitVec 4) : opY (a ++ x ++ y ++ n) = y :=
  (@BitVec.extractLsb'_append_eq_ite (4 + 4 + 4) 4 (a ++ x ++ y) n 4 4).trans (by
    simpa using BitVec.extractLsb'_append_eq_right (a := a ++ x) (b := y))

@[simp] theorem opN_formatR (a : BitVec 4) (x y : RegNum) (n : BitVec 4) : opN (a ++ x ++ y ++ n) = n :=
  BitVec.extractLsb'_append_eq_right (a := a ++ x ++ y) (b := n)

/-! ## Words from their fields -/

theorem word_formatA (w : Word) : opMajor w ++ opNNN w = w :=
  (BitVec.extractLsb'_append_extractLsb'_eq_extractLsb' (x := w) rfl).trans (by simp)

theorem word_formatI (w : Word) : opMajor w ++ opX w ++ opNN w = w := by
  have h : opMajor w ++ opX w = w.extractLsb' 8 8 := BitVec.extractLsb'_append_extractLsb'_eq_extractLsb' (x := w) rfl
  rw [h]
  exact (BitVec.extractLsb'_append_extractLsb'_eq_extractLsb' (x := w) rfl).trans (by simp)

theorem word_formatR (w : Word) : opMajor w ++ opX w ++ opY w ++ opN w = w := by
  have h : opMajor w ++ opX w = w.extractLsb' 8 8 := BitVec.extractLsb'_append_extractLsb'_eq_extractLsb' (x := w) rfl
  have h' : opMajor w ++ opX w ++ opY w = w.extractLsb' 4 12 := by
    rw [h]; exact BitVec.extractLsb'_append_extractLsb'_eq_extractLsb' (x := w) rfl
  rw [h']
  exact (BitVec.extractLsb'_append_extractLsb'_eq_extractLsb' (x := w) rfl).trans (by simp)

/-! ## Rows -/

/-- A mask of four fixed high bits is met by every word of format A or I with those bits. -/
theorem hitsRow_formatA (a : BitVec 4) (nnn : BitVec 12) : hitsRow (a ++ nnn) ⟨a ++ 0#12, 0xF#4 ++ 0#12⟩ = true := by
  have h : (a ++ nnn) &&& (0xF#4 ++ 0#12) = a ++ 0#12 := by
    rw [BitVec.and_append]
    congr 1
    · exact BitVec.and_allOnes
    · exact BitVec.and_zero
  exact beq_iff_eq.mpr h

theorem hitsRow_formatI (a : BitVec 4) (x : RegNum) (nn : Byte) :
    hitsRow (a ++ x ++ nn) ⟨a ++ 0#4 ++ 0#8, 0xF#4 ++ 0#4 ++ 0#8⟩ = true := by
  have h : (a ++ x ++ nn) &&& (0xF#4 ++ 0#4 ++ 0#8) = a ++ 0#4 ++ 0#8 := by
    rw [BitVec.and_append, BitVec.and_append]
    congr 1
    · congr 1
      · exact BitVec.and_allOnes
      · exact BitVec.and_zero
    · exact BitVec.and_zero
  exact beq_iff_eq.mpr h

/-- A mask of a fixed low byte too: format U. -/
theorem hitsRow_formatU (a : BitVec 4) (x : RegNum) (f : Byte) :
    hitsRow (a ++ x ++ f) ⟨a ++ 0#4 ++ f, 0xF#4 ++ 0#4 ++ 0xFF#8⟩ = true := by
  have h : (a ++ x ++ f) &&& (0xF#4 ++ 0#4 ++ 0xFF#8) = a ++ 0#4 ++ f := by
    rw [BitVec.and_append, BitVec.and_append]
    congr 1
    · congr 1
      · exact BitVec.and_allOnes
      · exact BitVec.and_zero
    · exact BitVec.and_allOnes
  exact beq_iff_eq.mpr h

/-- A mask of a fixed low nibble too: format R. -/
theorem hitsRow_formatR (a : BitVec 4) (x y : RegNum) (f : BitVec 4) :
    hitsRow (a ++ x ++ y ++ f) ⟨a ++ 0#4 ++ 0#4 ++ f, 0xF#4 ++ 0#4 ++ 0#4 ++ 0xF#4⟩ = true := by
  have h : (a ++ x ++ y ++ f) &&& (0xF#4 ++ 0#4 ++ 0#4 ++ 0xF#4) = a ++ 0#4 ++ 0#4 ++ f := by
    rw [BitVec.and_append, BitVec.and_append, BitVec.and_append]
    congr 1
    · congr 1
      · congr 1
        · exact BitVec.and_allOnes
        · exact BitVec.and_zero
      · exact BitVec.and_zero
    · exact BitVec.and_allOnes
  exact beq_iff_eq.mpr h

/-- A mask of four fixed high bits on a word of format D. -/
theorem hitsRow_formatD (a : BitVec 4) (x y : RegNum) (n : BitVec 4) :
    hitsRow (a ++ x ++ y ++ n) ⟨a ++ 0#4 ++ 0#4 ++ 0#4, 0xF#4 ++ 0#4 ++ 0#4 ++ 0#4⟩ = true := by
  have h : (a ++ x ++ y ++ n) &&& (0xF#4 ++ 0#4 ++ 0#4 ++ 0#4) = a ++ 0#4 ++ 0#4 ++ 0#4 := by
    rw [BitVec.and_append, BitVec.and_append, BitVec.and_append]
    congr 1
    · congr 1
      · congr 1
        · exact BitVec.and_allOnes
        · exact BitVec.and_zero
      · exact BitVec.and_zero
    · exact BitVec.and_zero
  exact beq_iff_eq.mpr h

/-! ## Bytes -/

/-- A word is its two bytes, high byte first (spec/20_memory.md R67). -/
theorem opcodeOfBytes_split (w : Word) : opcodeOfBytes (w.extractLsb' 8 8) (w.extractLsb' 0 8) = w :=
  (BitVec.extractLsb'_append_extractLsb'_eq_extractLsb' (x := w) rfl).trans (by simp)

/-- The host's view of the decoder on a full table word is the decoder. -/
theorem decodeTableWord_eq (w : Word) : decodeTableWord 16 w.toNat = decode w := by
  have h : (BitVec.ofNat 16 (w.toNat % 2 ^ 16) : Word) = w := by
    rw [Nat.mod_eq_of_lt w.isLt, BitVec.ofNat_toNat, BitVec.setWidth_eq]
  simp only [decodeTableWord, h, decodeBytes, opcodeOfBytes_split]
  cases decode w <;> rfl

end Sys2Proof
end

