-- ==== Sys2Proof/Laws/State.lean ====
section
/-! SUPPORT. What each update of the state leaves in each field, by unfolding once, and reads after writes of the
general registers, the keys and the pixels. -/
namespace Sys2Proof.Machine

/-! ### setReg -/

@[simp] theorem setReg_pc (s : State) (r : RegNum) (x : Byte) : (setReg s r x).pc = s.pc := rfl
@[simp] theorem setReg_i (s : State) (r : RegNum) (x : Byte) : (setReg s r x).i = s.i := rfl
@[simp] theorem setReg_stack (s : State) (r : RegNum) (x : Byte) : (setReg s r x).stack = s.stack := rfl
@[simp] theorem setReg_sp (s : State) (r : RegNum) (x : Byte) : (setReg s r x).sp = s.sp := rfl
@[simp] theorem setReg_dt (s : State) (r : RegNum) (x : Byte) : (setReg s r x).dt = s.dt := rfl
@[simp] theorem setReg_st (s : State) (r : RegNum) (x : Byte) : (setReg s r x).st = s.st := rfl
@[simp] theorem setReg_mem (s : State) (r : RegNum) (x : Byte) : (setReg s r x).mem = s.mem := rfl
@[simp] theorem setReg_fb (s : State) (r : RegNum) (x : Byte) : (setReg s r x).fb = s.fb := rfl
@[simp] theorem setReg_keys (s : State) (r : RegNum) (x : Byte) : (setReg s r x).keys = s.keys := rfl
@[simp] theorem setReg_latch (s : State) (r : RegNum) (x : Byte) : (setReg s r x).latch = s.latch := rfl
@[simp] theorem setReg_runState (s : State) (r : RegNum) (x : Byte) : (setReg s r x).runState = s.runState := rfl
@[simp] theorem setReg_inputs (s : State) (r : RegNum) (x : Byte) : (setReg s r x).inputs = s.inputs := rfl
@[simp] theorem setReg_draws (s : State) (r : RegNum) (x : Byte) : (setReg s r x).draws = s.draws := rfl

/-! ### setPc -/

@[simp] theorem setPc_v (s : State) (a : Word) : (setPc s a).v = s.v := rfl
@[simp] theorem setPc_i (s : State) (a : Word) : (setPc s a).i = s.i := rfl
@[simp] theorem setPc_stack (s : State) (a : Word) : (setPc s a).stack = s.stack := rfl
@[simp] theorem setPc_sp (s : State) (a : Word) : (setPc s a).sp = s.sp := rfl
@[simp] theorem setPc_dt (s : State) (a : Word) : (setPc s a).dt = s.dt := rfl
@[simp] theorem setPc_st (s : State) (a : Word) : (setPc s a).st = s.st := rfl
@[simp] theorem setPc_mem (s : State) (a : Word) : (setPc s a).mem = s.mem := rfl
@[simp] theorem setPc_fb (s : State) (a : Word) : (setPc s a).fb = s.fb := rfl
@[simp] theorem setPc_keys (s : State) (a : Word) : (setPc s a).keys = s.keys := rfl
@[simp] theorem setPc_latch (s : State) (a : Word) : (setPc s a).latch = s.latch := rfl
@[simp] theorem setPc_runState (s : State) (a : Word) : (setPc s a).runState = s.runState := rfl
@[simp] theorem setPc_inputs (s : State) (a : Word) : (setPc s a).inputs = s.inputs := rfl
@[simp] theorem setPc_draws (s : State) (a : Word) : (setPc s a).draws = s.draws := rfl

/-! ### advance -/

@[simp] theorem advance_v (s : State) : (advance s).v = s.v := rfl
@[simp] theorem advance_i (s : State) : (advance s).i = s.i := rfl
@[simp] theorem advance_stack (s : State) : (advance s).stack = s.stack := rfl
@[simp] theorem advance_sp (s : State) : (advance s).sp = s.sp := rfl
@[simp] theorem advance_dt (s : State) : (advance s).dt = s.dt := rfl
@[simp] theorem advance_st (s : State) : (advance s).st = s.st := rfl
@[simp] theorem advance_mem (s : State) : (advance s).mem = s.mem := rfl
@[simp] theorem advance_fb (s : State) : (advance s).fb = s.fb := rfl
@[simp] theorem advance_keys (s : State) : (advance s).keys = s.keys := rfl
@[simp] theorem advance_latch (s : State) : (advance s).latch = s.latch := rfl
@[simp] theorem advance_runState (s : State) : (advance s).runState = s.runState := rfl
@[simp] theorem advance_inputs (s : State) : (advance s).inputs = s.inputs := rfl
@[simp] theorem advance_draws (s : State) : (advance s).draws = s.draws := rfl

/-! ### skipNext -/

@[simp] theorem skipNext_v (s : State) : (skipNext s).v = s.v := rfl
@[simp] theorem skipNext_i (s : State) : (skipNext s).i = s.i := rfl
@[simp] theorem skipNext_stack (s : State) : (skipNext s).stack = s.stack := rfl
@[simp] theorem skipNext_sp (s : State) : (skipNext s).sp = s.sp := rfl
@[simp] theorem skipNext_dt (s : State) : (skipNext s).dt = s.dt := rfl
@[simp] theorem skipNext_st (s : State) : (skipNext s).st = s.st := rfl
@[simp] theorem skipNext_mem (s : State) : (skipNext s).mem = s.mem := rfl
@[simp] theorem skipNext_fb (s : State) : (skipNext s).fb = s.fb := rfl
@[simp] theorem skipNext_keys (s : State) : (skipNext s).keys = s.keys := rfl
@[simp] theorem skipNext_latch (s : State) : (skipNext s).latch = s.latch := rfl
@[simp] theorem skipNext_runState (s : State) : (skipNext s).runState = s.runState := rfl
@[simp] theorem skipNext_inputs (s : State) : (skipNext s).inputs = s.inputs := rfl
@[simp] theorem skipNext_draws (s : State) : (skipNext s).draws = s.draws := rfl

/-! ### setKey -/

@[simp] theorem setKey_v (s : State) (k : KeyNum) (b : Bool) : (setKey s k b).v = s.v := rfl
@[simp] theorem setKey_pc (s : State) (k : KeyNum) (b : Bool) : (setKey s k b).pc = s.pc := rfl
@[simp] theorem setKey_i (s : State) (k : KeyNum) (b : Bool) : (setKey s k b).i = s.i := rfl
@[simp] theorem setKey_stack (s : State) (k : KeyNum) (b : Bool) : (setKey s k b).stack = s.stack := rfl
@[simp] theorem setKey_sp (s : State) (k : KeyNum) (b : Bool) : (setKey s k b).sp = s.sp := rfl
@[simp] theorem setKey_dt (s : State) (k : KeyNum) (b : Bool) : (setKey s k b).dt = s.dt := rfl
@[simp] theorem setKey_st (s : State) (k : KeyNum) (b : Bool) : (setKey s k b).st = s.st := rfl
@[simp] theorem setKey_mem (s : State) (k : KeyNum) (b : Bool) : (setKey s k b).mem = s.mem := rfl
@[simp] theorem setKey_fb (s : State) (k : KeyNum) (b : Bool) : (setKey s k b).fb = s.fb := rfl
@[simp] theorem setKey_latch (s : State) (k : KeyNum) (b : Bool) : (setKey s k b).latch = s.latch := rfl
@[simp] theorem setKey_runState (s : State) (k : KeyNum) (b : Bool) : (setKey s k b).runState = s.runState := rfl
@[simp] theorem setKey_inputs (s : State) (k : KeyNum) (b : Bool) : (setKey s k b).inputs = s.inputs := rfl
@[simp] theorem setKey_draws (s : State) (k : KeyNum) (b : Bool) : (setKey s k b).draws = s.draws := rfl

/-! ### storeAtI -/

@[simp] theorem storeAtI_v (s : State) (bytes : List Byte) : (storeAtI s bytes).v = s.v := rfl
@[simp] theorem storeAtI_pc (s : State) (bytes : List Byte) : (storeAtI s bytes).pc = s.pc := rfl
@[simp] theorem storeAtI_i (s : State) (bytes : List Byte) : (storeAtI s bytes).i = s.i := rfl
@[simp] theorem storeAtI_stack (s : State) (bytes : List Byte) : (storeAtI s bytes).stack = s.stack := rfl
@[simp] theorem storeAtI_sp (s : State) (bytes : List Byte) : (storeAtI s bytes).sp = s.sp := rfl
@[simp] theorem storeAtI_dt (s : State) (bytes : List Byte) : (storeAtI s bytes).dt = s.dt := rfl
@[simp] theorem storeAtI_st (s : State) (bytes : List Byte) : (storeAtI s bytes).st = s.st := rfl
@[simp] theorem storeAtI_fb (s : State) (bytes : List Byte) : (storeAtI s bytes).fb = s.fb := rfl
@[simp] theorem storeAtI_keys (s : State) (bytes : List Byte) : (storeAtI s bytes).keys = s.keys := rfl
@[simp] theorem storeAtI_latch (s : State) (bytes : List Byte) : (storeAtI s bytes).latch = s.latch := rfl
@[simp] theorem storeAtI_runState (s : State) (bytes : List Byte) : (storeAtI s bytes).runState = s.runState := rfl
@[simp] theorem storeAtI_inputs (s : State) (bytes : List Byte) : (storeAtI s bytes).inputs = s.inputs := rfl
@[simp] theorem storeAtI_draws (s : State) (bytes : List Byte) : (storeAtI s bytes).draws = s.draws := rfl

/-! ### setRegThenFlag -/

@[simp] theorem setRegThenFlag_pc (s : State) (x : RegNum) (r : Byte) (f : Bool) : (setRegThenFlag s x r f).pc = s.pc := rfl
@[simp] theorem setRegThenFlag_i (s : State) (x : RegNum) (r : Byte) (f : Bool) : (setRegThenFlag s x r f).i = s.i := rfl
@[simp] theorem setRegThenFlag_stack (s : State) (x : RegNum) (r : Byte) (f : Bool) : (setRegThenFlag s x r f).stack = s.stack := rfl
@[simp] theorem setRegThenFlag_sp (s : State) (x : RegNum) (r : Byte) (f : Bool) : (setRegThenFlag s x r f).sp = s.sp := rfl
@[simp] theorem setRegThenFlag_dt (s : State) (x : RegNum) (r : Byte) (f : Bool) : (setRegThenFlag s x r f).dt = s.dt := rfl
@[simp] theorem setRegThenFlag_st (s : State) (x : RegNum) (r : Byte) (f : Bool) : (setRegThenFlag s x r f).st = s.st := rfl
@[simp] theorem setRegThenFlag_mem (s : State) (x : RegNum) (r : Byte) (f : Bool) : (setRegThenFlag s x r f).mem = s.mem := rfl
@[simp] theorem setRegThenFlag_fb (s : State) (x : RegNum) (r : Byte) (f : Bool) : (setRegThenFlag s x r f).fb = s.fb := rfl
@[simp] theorem setRegThenFlag_keys (s : State) (x : RegNum) (r : Byte) (f : Bool) : (setRegThenFlag s x r f).keys = s.keys := rfl
@[simp] theorem setRegThenFlag_latch (s : State) (x : RegNum) (r : Byte) (f : Bool) : (setRegThenFlag s x r f).latch = s.latch := rfl
@[simp] theorem setRegThenFlag_runState (s : State) (x : RegNum) (r : Byte) (f : Bool) : (setRegThenFlag s x r f).runState = s.runState := rfl
@[simp] theorem setRegThenFlag_inputs (s : State) (x : RegNum) (r : Byte) (f : Bool) : (setRegThenFlag s x r f).inputs = s.inputs := rfl
@[simp] theorem setRegThenFlag_draws (s : State) (x : RegNum) (r : Byte) (f : Bool) : (setRegThenFlag s x r f).draws = s.draws := rfl

/-! ### The changed fields -/

@[simp] theorem setPc_pc (s : State) (a : Word) : (setPc s a).pc = a := rfl
@[simp] theorem advance_pc (s : State) : (advance s).pc = s.pc + 2 := rfl
@[simp] theorem skipNext_pc (s : State) : (skipNext s).pc = s.pc + 4 := rfl
@[simp] theorem storeAtI_mem (s : State) (bytes : List Byte) :
    (storeAtI s bytes).mem = writeBytes s.mem s.i.toNat bytes := rfl

/-! ### skipIf -/

@[simp] theorem skipIf_v (c : Bool) (s : State) : (skipIf c s).v = s.v := by cases c <;> rfl
@[simp] theorem skipIf_i (c : Bool) (s : State) : (skipIf c s).i = s.i := by cases c <;> rfl
@[simp] theorem skipIf_stack (c : Bool) (s : State) : (skipIf c s).stack = s.stack := by cases c <;> rfl
@[simp] theorem skipIf_sp (c : Bool) (s : State) : (skipIf c s).sp = s.sp := by cases c <;> rfl
@[simp] theorem skipIf_dt (c : Bool) (s : State) : (skipIf c s).dt = s.dt := by cases c <;> rfl
@[simp] theorem skipIf_st (c : Bool) (s : State) : (skipIf c s).st = s.st := by cases c <;> rfl
@[simp] theorem skipIf_mem (c : Bool) (s : State) : (skipIf c s).mem = s.mem := by cases c <;> rfl
@[simp] theorem skipIf_fb (c : Bool) (s : State) : (skipIf c s).fb = s.fb := by cases c <;> rfl
@[simp] theorem skipIf_keys (c : Bool) (s : State) : (skipIf c s).keys = s.keys := by cases c <;> rfl
@[simp] theorem skipIf_latch (c : Bool) (s : State) : (skipIf c s).latch = s.latch := by cases c <;> rfl
@[simp] theorem skipIf_runState (c : Bool) (s : State) : (skipIf c s).runState = s.runState := by cases c <;> rfl
@[simp] theorem skipIf_inputs (c : Bool) (s : State) : (skipIf c s).inputs = s.inputs := by cases c <;> rfl
@[simp] theorem skipIf_draws (c : Bool) (s : State) : (skipIf c s).draws = s.draws := by cases c <;> rfl

/-- A skip instruction goes on at PC + 4 or PC + 2 (R23). -/
@[simp] theorem skipIf_pc (c : Bool) (s : State) : (skipIf c s).pc = if c then s.pc + 4 else s.pc + 2 := by
  cases c <;> rfl

/-! ### General registers -/

/-- A register read depends on the register file only. -/
theorem reg_congr {s t : State} (h : t.v = s.v) (r : RegNum) : reg t r = reg s r := by simp [reg, h]

/-- Read after write: the register written gives the value, every other one its old value (R20). -/
@[simp] theorem reg_setReg (s : State) (a b : RegNum) (x : Byte) :
    reg (setReg s a x) b = if a = b then x else reg s b := by
  simp [reg, setReg, Vector.getElem_set, BitVec.toNat_inj]

@[simp] theorem reg_setPc (s : State) (a : Word) (r : RegNum) : reg (setPc s a) r = reg s r := rfl
@[simp] theorem reg_advance (s : State) (r : RegNum) : reg (advance s) r = reg s r := rfl
@[simp] theorem reg_skipNext (s : State) (r : RegNum) : reg (skipNext s) r = reg s r := rfl
@[simp] theorem reg_setKey (s : State) (k : KeyNum) (b : Bool) (r : RegNum) : reg (setKey s k b) r = reg s r := rfl
@[simp] theorem reg_storeAtI (s : State) (bytes : List Byte) (r : RegNum) :
    reg (storeAtI s bytes) r = reg s r := rfl
@[simp] theorem reg_skipIf (c : Bool) (s : State) (r : RegNum) : reg (skipIf c s) r = reg s r := by cases c <;> rfl

/-- The flag is written last, so it is what VF holds; the result is in Vx unless x = 15 (R21). -/
@[simp] theorem reg_setRegThenFlag (s : State) (x b : RegNum) (r : Byte) (f : Bool) :
    reg (setRegThenFlag s x r f) b = if VF = b then flagByte f else if x = b then r else reg s b := by
  simp [setRegThenFlag]

/-! ### Keys -/

/-- Read after write of a key flag (R32). -/
@[simp] theorem key_setKey (s : State) (a b : KeyNum) (d : Bool) :
    key (setKey s a d) b = if a = b then d else key s b := by
  simp [key, setKey, Vector.getElem_set, BitVec.toNat_inj]

/-- A key read depends on the key flags only. -/
theorem key_congr {s t : State} (h : t.keys = s.keys) (k : KeyNum) : key t k = key s k := by simp [key, h]

/-! ### Pixels -/

/-- Read after write of a pixel (R31). -/
@[simp] theorem pixel_setPixel (fb : Screen) (p q : Pixel) (b : Bool) :
    pixel (setPixel fb p b) q = if p = q then b else pixel fb q := by
  obtain ⟨r, c⟩ := p
  obtain ⟨r', c'⟩ := q
  by_cases hr : r = r'
  · subst hr
    by_cases hc : c = c'
    · subst hc; simp [pixel, setPixel]
    · have : c.toNat ≠ c'.toNat := fun h => hc (BitVec.toNat_inj.mp h)
      simp [pixel, setPixel, this, hc]
  · have : r.toNat ≠ r'.toNat := fun h => hr (BitVec.toNat_inj.mp h)
    simp [pixel, setPixel, this, hr]

/-- Two displays with the same pixels are the same display. -/
theorem screen_ext {a b : Screen} (h : ∀ p, pixel a p = pixel b p) : a = b := by
  ext r hr c hc
  have := h (BitVec.ofNat 5 r, BitVec.ofNat 6 c)
  have hr' : r % 32 = r := Nat.mod_eq_of_lt hr
  have hc' : c % 64 = c := Nat.mod_eq_of_lt hc
  simpa [pixel, hr', hc'] using this

/-- Every pixel of the cleared display is unset (R180). -/
@[simp] theorem pixel_clearScreen (p : Pixel) : pixel clearScreen p = false := by simp [pixel, clearScreen]

end Sys2Proof.Machine
end

