-- ==== Sys2Proof/Laws/Memory.lean ====
section
/-! SUPPORT. The laws of memory: reads after writes, and the canonical form kept by every memory operation. -/
namespace Sys2Proof.Machine

/-! ## Reads after writes -/

@[simp] theorem readByte_nil (a : Nat) : readByte [] a = initByte a := rfl

@[simp] theorem readByte_cons (b : Nat) (x : Byte) (m : Memory) (a : Nat) :
    readByte ((b, x) :: m) a = if b = a then x else readByte m a := rfl

theorem readByte_eraseCell (m : Memory) (a b : Nat) :
    readByte (eraseCell m a) b = if a = b then initByte b else readByte m b := by
  induction m with
  | nil => simp [eraseCell]
  | cons c m ih =>
    obtain ⟨d, x⟩ := c
    have ih' : readByte (List.filter (fun c => c.1 != a) m) b = if a = b then initByte b else readByte m b := ih
    by_cases h : d = a
    · subst h
      simp only [eraseCell, List.filter_cons, bne_self_eq_false, Bool.false_eq_true, ↓reduceIte, readByte_cons, ih']
      split <;> simp_all
    · simp only [eraseCell, List.filter_cons, bne_iff_ne, ne_eq, h, not_false_eq_true, ↓reduceIte, readByte_cons, ih']
      split <;> split <;> simp_all

theorem readByte_insertCell (m : Memory) (a b : Nat) (x : Byte) (h : ∀ c ∈ m, c.1 ≠ a) :
    readByte (insertCell m a x) b = if a = b then x else readByte m b := by
  induction m with
  | nil => simp [insertCell]
  | cons c m ih =>
    obtain ⟨d, y⟩ := c
    have hd : d ≠ a := h (d, y) (by simp)
    have ih' := ih fun c hc => h c (by simp [hc])
    unfold insertCell
    split
    · simp
    · simp only [readByte_cons, ih']
      split <;> split <;> simp_all

theorem eraseCell_ne (m : Memory) (a : Nat) : ∀ c ∈ eraseCell m a, c.1 ≠ a := by
  intro c hc
  simpa [eraseCell] using (List.mem_filter.mp hc).2

/-- Read after write of one byte, on any memory: the byte written at its address, the old byte elsewhere. -/
@[simp] theorem readByte_writeByte (m : Memory) (a b : Nat) (x : Byte) :
    readByte (writeByte m a x) b = if a = b then x else readByte m b := by
  unfold writeByte
  split
  · next h =>
    rw [readByte_eraseCell]
    split
    · next hab => rw [h, hab]
    · rfl
  · rw [readByte_insertCell _ _ _ _ (eraseCell_ne m a), readByte_eraseCell]
    split <;> rfl

/-- Read after a run of bytes is written: the run's byte inside it, the old byte outside. -/
theorem readByte_writeBytes (bytes : List Byte) (m : Memory) (a b : Nat) :
    readByte (writeBytes m a bytes) b =
      if h : a ≤ b ∧ b - a < bytes.length then bytes[b - a]'h.2 else readByte m b := by
  induction bytes generalizing m a with
  | nil => simp [writeBytes]
  | cons x rest ih =>
    simp only [writeBytes, ih, readByte_writeByte, List.length_cons]
    by_cases hab : a = b
    · subst hab; simp
    · by_cases h : a + 1 ≤ b ∧ b - (a + 1) < rest.length
      · have h' : a ≤ b ∧ b - a < rest.length + 1 := by omega
        have he : b - a = (b - (a + 1)) + 1 := by omega
        rw [dif_pos h, dif_pos h']
        simp only [he, List.getElem_cons_succ]
      · have h' : ¬ (a ≤ b ∧ b - a < rest.length + 1) := by omega
        rw [dif_neg h, dif_neg h', if_neg hab]

theorem readByte_writeBytes_inside (bytes : List Byte) (m : Memory) (a k : Nat) (h : k < bytes.length) :
    readByte (writeBytes m a bytes) (a + k) = bytes[k] := by
  rw [readByte_writeBytes, dif_pos (by omega)]
  simp

theorem readByte_writeBytes_outside (bytes : List Byte) (m : Memory) (a b : Nat)
    (h : b < a ∨ a + bytes.length ≤ b) : readByte (writeBytes m a bytes) b = readByte m b := by
  rw [readByte_writeBytes, dif_neg (by omega)]

@[simp] theorem readBytes_length (m : Memory) (a n : Nat) : (readBytes m a n).length = n := by
  induction n generalizing a with
  | zero => rfl
  | succ n ih => simp [readBytes, ih]

/-- Byte `k` of a run is the byte at its address. -/
@[simp] theorem readBytes_getElem (m : Memory) (a n k : Nat) (h : k < (readBytes m a n).length) :
    (readBytes m a n)[k] = readByte m (a + k) := by
  induction n generalizing a k with
  | zero => simp at h
  | succ n ih =>
    cases k with
    | zero => simp [readBytes]
    | succ k =>
      simp only [readBytes, List.getElem_cons_succ]
      rw [ih]
      congr 1
      omega

theorem readBytes_getD (m : Memory) (a n k : Nat) :
    (readBytes m a n).getD k 0 = if k < n then readByte m (a + k) else 0 := by
  by_cases h : k < n
  · rw [List.getD_eq_getElem _ _ (by simpa using h)]; simp [h]
  · rw [List.getD_eq_default _ _ (by simpa using h)]; simp [h]

/-! ## The canonical form -/

theorem memoryWf_cons (a : Nat) (x : Byte) (m : Memory) :
    memoryWf ((a, x) :: m) = true ↔
      a ≤ lastAddress ∧ x ≠ initByte a ∧ (∀ c ∈ m, a < c.1) ∧ memoryWf m = true := by
  simp [memoryWf, and_assoc]

theorem memoryWf_eraseCell (m : Memory) (a : Nat) (h : memoryWf m = true) : memoryWf (eraseCell m a) = true := by
  induction m with
  | nil => rfl
  | cons c m ih =>
    obtain ⟨b, x⟩ := c
    obtain ⟨h1, h2, h3, h4⟩ := (memoryWf_cons b x m).mp h
    by_cases hb : b = a
    · simpa [eraseCell, hb] using ih h4
    · have : eraseCell ((b, x) :: m) a = (b, x) :: eraseCell m a := by simp [eraseCell, hb]
      rw [this, memoryWf_cons]
      exact ⟨h1, h2, fun c hc => h3 c (List.mem_filter.mp hc).1, ih h4⟩

theorem mem_insertCell (m : Memory) (a : Nat) (x : Byte) (c : Host.Cell) (h : c ∈ insertCell m a x) :
    c = (a, x) ∨ c ∈ m := by
  induction m with
  | nil => simpa [insertCell] using h
  | cons d m ih =>
    obtain ⟨b, y⟩ := d
    unfold insertCell at h
    split at h
    · simpa using h
    · rcases List.mem_cons.mp h with h | h
      · exact .inr (by simp [h])
      · rcases ih h with h | h
        · exact .inl h
        · exact .inr (by simp [h])

theorem memoryWf_insertCell (m : Memory) (a : Nat) (x : Byte) (h : memoryWf m = true) (ha : a ≤ lastAddress)
    (hx : x ≠ initByte a) (hn : ∀ c ∈ m, c.1 ≠ a) : memoryWf (insertCell m a x) = true := by
  induction m with
  | nil => simp [insertCell, memoryWf, ha, hx]
  | cons c m ih =>
    obtain ⟨b, y⟩ := c
    obtain ⟨h1, h2, h3, h4⟩ := (memoryWf_cons b y m).mp h
    have hb : b ≠ a := hn (b, y) (by simp)
    unfold insertCell
    split
    · next hab =>
      rw [memoryWf_cons]
      refine ⟨ha, hx, ?_, h⟩
      intro c hc
      rcases List.mem_cons.mp hc with rfl | hc
      · exact hab
      · exact lt_trans hab (h3 c hc)
    · next hab =>
      rw [memoryWf_cons]
      refine ⟨h1, h2, ?_, ih h4 fun c hc => hn c (by simp [hc])⟩
      intro c hc
      rcases mem_insertCell m a x c hc with rfl | hc
      · exact lt_of_le_of_ne (not_lt.mp hab) hb
      · exact h3 c hc

/-- A write inside the address space keeps the canonical form. -/
theorem memoryWf_writeByte (m : Memory) (a : Nat) (x : Byte) (h : memoryWf m = true) (ha : a ≤ lastAddress) :
    memoryWf (writeByte m a x) = true := by
  unfold writeByte
  split
  · exact memoryWf_eraseCell m a h
  · next hx => exact memoryWf_insertCell _ a x (memoryWf_eraseCell m a h) ha hx (eraseCell_ne m a)

/-- A run of writes inside the address space keeps the canonical form. -/
theorem memoryWf_writeBytes (bytes : List Byte) (m : Memory) (a : Nat) (h : memoryWf m = true)
    (ha : a + bytes.length ≤ lastAddress + 1) : memoryWf (writeBytes m a bytes) = true := by
  induction bytes generalizing m a with
  | nil => exact h
  | cons x rest ih =>
    simp only [List.length_cons] at ha
    exact ih _ _ (memoryWf_writeByte m a x h (by omega)) (by omega)

/-- The memory `init` leaves is in canonical form. -/
theorem memoryWf_reset : memoryWf State.reset.mem = true := rfl

/-- Two memories in canonical form that read the same everywhere are the same list. -/
theorem memory_ext (m n : Memory) (hm : memoryWf m = true) (hn : memoryWf n = true)
    (h : ∀ a, readByte m a = readByte n a) : m = n := by
  have below : ∀ (m : Memory) (a : Nat), (∀ c ∈ m, a < c.1) → readByte m a = initByte a := by
    intro m a hm
    induction m with
    | nil => rfl
    | cons c m ih =>
      have h1 := hm c (by simp)
      rw [readByte_cons, if_neg (by omega)]
      exact ih fun c hc => hm c (by simp [hc])
  have rises : ∀ (a b : Nat) (m : Memory), a < b → (∀ c ∈ m, b < c.1) → ∀ (x : Byte), ∀ c ∈ (b, x) :: m, a < c.1 := by
    intro a b m hab hm x c hc
    rcases List.mem_cons.mp hc with rfl | hc
    · exact hab
    · exact lt_trans hab (hm c hc)
  induction m generalizing n with
  | nil =>
    cases n with
    | nil => rfl
    | cons d n =>
      obtain ⟨b, y⟩ := d
      obtain ⟨_, h2, _, _⟩ := (memoryWf_cons b y n).mp hn
      have := h b
      rw [readByte_nil, readByte_cons, if_pos rfl] at this
      exact absurd this.symm h2
  | cons c m ih =>
    obtain ⟨a, x⟩ := c
    obtain ⟨_, hx, hm3, hm4⟩ := (memoryWf_cons a x m).mp hm
    cases n with
    | nil =>
      have := h a
      rw [readByte_nil, readByte_cons, if_pos rfl] at this
      exact absurd this hx
    | cons d n =>
      obtain ⟨b, y⟩ := d
      obtain ⟨_, hy, hn3, hn4⟩ := (memoryWf_cons b y n).mp hn
      have hab : a = b := by
        rcases lt_trichotomy a b with hlt | heq | hgt
        · have := h a
          rw [below _ a (rises a b n hlt hn3 y), readByte_cons, if_pos rfl] at this
          exact absurd this hx
        · exact heq
        · have := h b
          rw [below _ b (rises b a m hgt hm3 x), readByte_cons, if_pos rfl] at this
          exact absurd this.symm hy
      subst hab
      have hxy : x = y := by simpa only [readByte_cons, if_true] using h a
      subst hxy
      congr 1
      refine ih n hm4 hn4 fun b => ?_
      by_cases hb : a = b
      · subst hb; rw [below m _ hm3, below n _ hn3]
      · simpa only [readByte_cons, if_neg hb] using h b

end Sys2Proof.Machine
end

