-- ==== Sys2Proof/Laws/Ops.lean ====
section
/-! SUPPORT. One lemma for each shared operation, saying once what it can do. -/
namespace Sys2Proof.Machine

/-! ## Bounds check and errors -/

/-- The bounds check passes exactly when the run is empty or lies in the memory (R65). -/
theorem rangeError_eq_none (base : Word) (n : Nat) :
    rangeError base n = none ↔ n = 0 ∨ base.toNat + n - 1 ≤ 0xFFF := by
  rw [rangeError]
  split
  · next h => simpa [lastAddress] using h
  · next h => simpa [lastAddress] using h

/-- The bounds check of a run that leaves the memory reports `max(base, 0x1000)` (R65). -/
theorem rangeError_eq_some (base : Word) (n : Nat) (h : 0 < n ∧ 0xFFF < base.toNat + n - 1) :
    rangeError base n = some (.memoryOutOfBounds (BitVec.ofNat 16 (max base.toNat 0x1000))) := by
  have hn : ¬ (n = 0 ∨ base.toNat + n - 1 ≤ lastAddress) := by simp only [lastAddress]; omega
  rw [rangeError, if_neg hn]
  congr 2
  apply BitVec.eq_of_toNat_eq
  have := base.isLt
  split
  · next h' =>
    have : max base.toNat 0x1000 = 0x1000 := by simp only [lastAddress] at h'; omega
    simp [this]
  · next h' =>
    have : max base.toNat 0x1000 = base.toNat := by simp only [lastAddress] at h'; omega
    simp [this]

/-- Whatever the bounds check reports is an address above 0xFFF (R202). -/
theorem rangeError_address {base : Word} {n : Nat} {e : HaltReason} (h : rangeError base n = some e) :
    ∃ a : Word, e = .memoryOutOfBounds a ∧ 0x1000 ≤ a.toNat := by
  unfold rangeError at h
  split at h
  · cases h
  · refine ⟨_, (Option.some.inj h).symm, ?_⟩
    split
    · decide
    · next h' => simpa [lastAddress, Nat.lt_iff_add_one_le] using h'

/-- An access inside the memory has its effect (R65). -/
theorem withRange_inside {base : Word} {n : Nat} (s : State) (effect : Out)
    (h : n = 0 ∨ base.toNat + n - 1 ≤ 0xFFF) : withRange base n s effect = effect := by
  simp [withRange, (rangeError_eq_none base n).mpr h]

/-- An access that leaves the memory raises its error and has no effect (R65, R203). -/
theorem withRange_outside {base : Word} {n : Nat} (s : State) (effect : Out)
    (h : 0 < n ∧ 0xFFF < base.toNat + n - 1) :
    withRange base n s effect = raise (.memoryOutOfBounds (BitVec.ofNat 16 (max base.toNat 0x1000))) s := by
  simp [withRange, rangeError_eq_some base n h]

/-- What a bounds-checked access can do: its error, or its effect. -/
theorem withRange_cases (base : Word) (n : Nat) (s : State) (effect : Out) :
    (∃ e, rangeError base n = some e ∧ withRange base n s effect = raise e s) ∨
    ((n = 0 ∨ base.toNat + n - 1 ≤ 0xFFF) ∧ withRange base n s effect = effect) := by
  cases h : rangeError base n with
  | none => exact .inr ⟨(rangeError_eq_none base n).mp h, by simp [withRange, h]⟩
  | some e => exact .inl ⟨e, rfl, by simp [withRange, h]⟩

/-! ## Fetch -/

/-- The fetch of a PC inside the memory is the big-endian word there (R66, R67). -/
theorem fetch_inside (s : State) (h : s.pc.toNat ≤ 0xFFE) :
    fetch s = .ok (readByte s.mem s.pc.toNat ++ readByte s.mem (s.pc.toNat + 1)) := by
  have : rangeError s.pc 2 = none := (rangeError_eq_none _ _).mpr (.inr (by omega))
  simp [fetch, this, opcodeOfBytes]

/-- A fetch that succeeds had PC inside the memory (R66). -/
theorem fetch_ok_pc {s : State} {op : Word} (h : fetch s = .ok op) : s.pc.toNat ≤ 0xFFE := by
  unfold fetch at h
  split at h
  · cases h
  · next h' => have := (rangeError_eq_none _ _).mp h'; omega

/-- The fetch looks at PC and the memory only. -/
theorem fetch_congr {s t : State} (hpc : t.pc = s.pc) (hmem : t.mem = s.mem) : fetch t = fetch s := by
  simp [fetch, hpc, hmem]

/-! ## The stack -/

/-- Push on a stack with room (R121). -/
theorem push_room (s : State) (a : Word) (h : s.sp.val < 16) :
    push s a = some { s with stack := s.stack.set s.sp.val a h, sp := ⟨s.sp.val + 1, by omega⟩ } := by
  simp [push, h]

/-- Push on a full stack (R121). -/
theorem push_full (s : State) (a : Word) (h : s.sp.val = 16) : push s a = none := by simp [push, h]

/-- Pop of a stack in use (R122). -/
theorem pop_used (s : State) (h : 0 < s.sp.val) :
    pop s = some (s.stack[s.sp.val - 1]'(by omega), { s with sp := ⟨s.sp.val - 1, by omega⟩ }) := by
  simp [pop, h]

/-- Pop of an empty stack (R122). -/
theorem pop_empty (s : State) (h : s.sp.val = 0) : pop s = none := by simp [pop, h]

/-! ## Register runs -/

/-- A run of register writes changes the register file only. -/
theorem setRegsFrom_eq (bytes : List Byte) (s : State) (k : Nat) :
    setRegsFrom s k bytes = { s with v := (setRegsFrom s k bytes).v } := by
  induction bytes generalizing s k with
  | nil => rfl
  | cons x rest ih => rw [setRegsFrom, ih]; rfl

/-- Registers `k` to `k + length - 1` get the bytes in order, the others keep their value (R165). -/
theorem reg_setRegsFrom (bytes : List Byte) (s : State) (k : Nat) (r : RegNum) (hk : k + bytes.length ≤ 16) :
    reg (setRegsFrom s k bytes) r =
      if h : k ≤ r.toNat ∧ r.toNat - k < bytes.length then bytes[r.toNat - k]'h.2 else reg s r := by
  induction bytes generalizing s k with
  | nil => simp [setRegsFrom]
  | cons x rest ih =>
    simp only [List.length_cons] at hk
    rw [setRegsFrom, ih _ _ (by omega), reg_setReg]
    have hk16 : (BitVec.ofNat 4 k).toNat = k := by simp; omega
    have heq : (BitVec.ofNat 4 k = r) ↔ k = r.toNat := by
      rw [← BitVec.toNat_inj, hk16]
    simp only [List.length_cons, heq]
    by_cases hkr : k = r.toNat
    · subst hkr; simp
    · by_cases h : k + 1 ≤ r.toNat ∧ r.toNat - (k + 1) < rest.length
      · have h' : k ≤ r.toNat ∧ r.toNat - k < rest.length + 1 := by omega
        have he : r.toNat - k = (r.toNat - (k + 1)) + 1 := by omega
        rw [dif_pos h, dif_pos h']
        simp only [he, List.getElem_cons_succ]
      · have h' : ¬ (k ≤ r.toNat ∧ r.toNat - k < rest.length + 1) := by omega
        rw [dif_neg h, dif_neg h', if_neg hkr]

@[simp] theorem regsUpTo_length (s : State) (x : RegNum) : (regsUpTo s x).length = x.toNat + 1 := by
  simp [regsUpTo]

/-- Element `k` of V0 to VX is Vk (R164). -/
@[simp] theorem regsUpTo_getElem (s : State) (x : RegNum) (k : Nat) (h : k < (regsUpTo s x).length) :
    (regsUpTo s x)[k] = reg s (BitVec.ofNat 4 k) := by
  simp [regsUpTo]

@[simp] theorem decimalDigits_length (x : Byte) : (decimalDigits x).length = 3 := rfl

/-! ## Timers -/

/-- A timer tick is subtraction by 1 that stops at 0 (R220). -/
theorem countDown_toNat (t : Byte) : (countDown t).toNat = t.toNat - 1 := by
  unfold countDown
  split
  · next h => simp [h]
  · next h =>
    have : t.toNat ≠ 0 := fun h' => h (BitVec.eq_of_toNat_eq (by simpa using h'))
    have := t.isLt
    rw [BitVec.toNat_sub]
    simp
    omega

end Sys2Proof.Machine
end

