-- ==== Sys2Proof/Laws/Display.lean ====
section
/-! SUPPORT. What the XOR blit does to every pixel, and when it reports a collision. -/
namespace Sys2Proof.Machine

/-- The bit of a sprite that lands on a pixel, for a sprite of rows `bytes` at row `y0` and column `x0`: pixel
(row, col) is sprite row `(row - y0) mod 32`, sprite column `(col - x0) mod 64`, most significant bit first
(spec/43_display.md R181, R182). -/
def spriteBit (bytes : List Byte) (y0 : BitVec 5) (x0 : BitVec 6) (p : Pixel) : Bool :=
  decide ((p.2 - x0).toNat < 8) && (bytes.getD (p.1 - y0).toNat 0).getLsbD (7 - (p.2 - x0).toNat)

/-- Drawing pixels none of which is drawn twice flips exactly those pixels. -/
theorem flips_pixel (ps : List Pixel) (h : ps.Nodup) (d : Screen × Bool) (q : Pixel) :
    pixel (ps.foldl flipPixel d).1 q = (pixel d.1 q ^^ decide (q ∈ ps)) := by
  induction ps generalizing d with
  | nil => simp
  | cons p ps ih =>
    obtain ⟨hp, hps⟩ := List.nodup_cons.mp h
    rw [List.foldl_cons, ih hps]
    by_cases hq : p = q
    · subst hq; simp [flipPixel, hp]
    · have : q ≠ p := fun h => hq h.symm
      simp [flipPixel, hq, this]

/-- Drawing pixels none of which is drawn twice collides when one of them was set before. -/
theorem flips_collision (ps : List Pixel) (h : ps.Nodup) (d : Screen × Bool) :
    (ps.foldl flipPixel d).2 = (d.2 || ps.any (pixel d.1)) := by
  induction ps generalizing d with
  | nil => simp
  | cons p ps ih =>
    obtain ⟨hp, hps⟩ := List.nodup_cons.mp h
    rw [List.foldl_cons, ih hps]
    have : ps.any (pixel (flipPixel d p).1) = ps.any (pixel d.1) := by
      rw [Bool.eq_iff_iff]
      simp only [List.any_eq_true]
      refine exists_congr fun q => and_congr_right fun hq => ?_
      have : p ≠ q := fun h => hp (h ▸ hq)
      simp [flipPixel, this]
    rw [this]
    simp [flipPixel, Bool.or_assoc]

/-- A pixel belongs to a sprite row when the row is its own and its bit of the byte is set (R181). -/
theorem mem_spriteRowPixels (row : BitVec 5) (x0 : BitVec 6) (b : Byte) (p : Pixel) :
    p ∈ spriteRowPixels row x0 b ↔
      p.1 = row ∧ (p.2 - x0).toNat < 8 ∧ b.getLsbD (7 - (p.2 - x0).toNat) = true := by
  obtain ⟨r, c⟩ := p
  simp only [spriteRowPixels, List.mem_map, List.mem_filter, List.mem_range, Prod.mk.injEq]
  constructor
  · rintro ⟨k, ⟨hk, hb⟩, rfl, rfl⟩
    have : (x0 + BitVec.ofNat 6 k - x0).toNat = k := by
      rw [BitVec.add_comm, BitVec.add_sub_cancel]; simp; omega
    rw [this]
    exact ⟨rfl, hk, hb⟩
  · rintro ⟨rfl, hk, hb⟩
    refine ⟨(c - x0).toNat, ⟨hk, hb⟩, rfl, ?_⟩
    rw [BitVec.ofNat_toNat, BitVec.setWidth_eq, BitVec.add_comm, BitVec.sub_add_cancel]

theorem nodup_spriteRowPixels (row : BitVec 5) (x0 : BitVec 6) (b : Byte) : (spriteRowPixels row x0 b).Nodup := by
  refine List.Nodup.map_on ?_ (List.Nodup.filter _ List.nodup_range)
  intro k hk l hl h
  have hk := List.mem_range.mp (List.mem_filter.mp hk).1
  have hl := List.mem_range.mp (List.mem_filter.mp hl).1
  have := congrArg (fun p : Pixel => (p.2 - x0).toNat) h
  simp only [BitVec.add_comm x0, BitVec.add_sub_cancel, BitVec.toNat_ofNat] at this
  omega

/-- Row `j` of a sprite counted from its row `r`. -/
theorem mem_spritePixels (bytes : List Byte) (y0 : BitVec 5) (x0 : BitVec 6) (r : Nat) (p : Pixel) :
    p ∈ spritePixels y0 x0 r bytes ↔
      ∃ j, ∃ h : j < bytes.length, p ∈ spriteRowPixels (y0 + BitVec.ofNat 5 (r + j)) x0 bytes[j] := by
  induction bytes generalizing r with
  | nil => simp [spritePixels]
  | cons b rest ih =>
    simp only [spritePixels, List.mem_append, ih]
    constructor
    · rintro (h | ⟨j, hj, h⟩)
      · exact ⟨0, by simp, by simpa using h⟩
      · exact ⟨j + 1, by simpa using hj, by simpa [Nat.add_assoc, Nat.add_comm 1 j] using h⟩
    · rintro ⟨j, hj, h⟩
      cases j with
      | zero => exact .inl (by simpa using h)
      | succ j => exact .inr ⟨j, by simpa using hj, by simpa [Nat.add_assoc, Nat.add_comm 1 j] using h⟩

/-- The row of a pixel of a sprite of at most 32 rows tells the sprite row it is on. -/
theorem spriteRow_of_pixel (y0 row : BitVec 5) (j : Nat) (hj : j < 32) (h : row = y0 + BitVec.ofNat 5 j) :
    (row - y0).toNat = j := by
  subst h
  rw [BitVec.add_comm, BitVec.add_sub_cancel]
  simp
  omega

/-- No pixel is drawn twice by a sprite of at most 32 rows (R182). -/
theorem nodup_spritePixels (bytes : List Byte) (y0 : BitVec 5) (x0 : BitVec 6) (r : Nat)
    (h : r + bytes.length ≤ 32) : (spritePixels y0 x0 r bytes).Nodup := by
  induction bytes generalizing r with
  | nil => simp [spritePixels]
  | cons b rest ih =>
    simp only [List.length_cons] at h
    rw [spritePixels, List.nodup_append]
    refine ⟨nodup_spriteRowPixels _ _ _, ih _ (by omega), ?_⟩
    rintro p hp q hq rfl
    obtain ⟨j, hj, hq⟩ := (mem_spritePixels rest y0 x0 (r + 1) p).mp hq
    have h1 := spriteRow_of_pixel y0 p.1 r (by omega) ((mem_spriteRowPixels _ _ _ _).mp hp).1
    have h2 := spriteRow_of_pixel y0 p.1 (r + 1 + j) (by omega) ((mem_spriteRowPixels _ _ _ _).mp hq).1
    omega

/-- The pixels drawn are those of `spriteBit` (R181, R182). -/
theorem mem_spritePixels_iff_spriteBit (bytes : List Byte) (y0 : BitVec 5) (x0 : BitVec 6) (p : Pixel)
    (h : bytes.length ≤ 32) : p ∈ spritePixels y0 x0 0 bytes ↔ spriteBit bytes y0 x0 p = true := by
  rw [mem_spritePixels]
  simp only [mem_spriteRowPixels, spriteBit, Bool.and_eq_true, decide_eq_true_eq, Nat.zero_add]
  constructor
  · rintro ⟨j, hj, hrow, hc, hb⟩
    have := spriteRow_of_pixel y0 p.1 j (by omega) hrow
    refine ⟨hc, ?_⟩
    rw [this, List.getD_eq_getElem _ _ hj]
    exact hb
  · rintro ⟨hc, hb⟩
    have hj : (p.1 - y0).toNat < bytes.length := by
      by_contra hj
      rw [List.getD_eq_default _ _ (by omega)] at hb
      simp at hb
    refine ⟨(p.1 - y0).toNat, hj, ?_, hc, ?_⟩
    · rw [BitVec.ofNat_toNat, BitVec.setWidth_eq, BitVec.add_comm, BitVec.sub_add_cancel]
    · rwa [List.getD_eq_getElem _ _ hj] at hb

/-- The blit XORs the sprite onto the display (R181, R182). -/
theorem blit_pixel (fb : Screen) (y0 : BitVec 5) (x0 : BitVec 6) (bytes : List Byte) (h : bytes.length ≤ 32)
    (p : Pixel) : pixel (blit fb y0 x0 bytes).1 p = (pixel fb p ^^ spriteBit bytes y0 x0 p) := by
  rw [blit, flips_pixel _ (nodup_spritePixels bytes y0 x0 0 (by omega))]
  congr 1
  rw [Bool.eq_iff_iff, decide_eq_true_iff, mem_spritePixels_iff_spriteBit bytes y0 x0 p h]

/-- The blit reports a collision when the sprite covers a pixel that was set (R181, R183). -/
theorem blit_collision (fb : Screen) (y0 : BitVec 5) (x0 : BitVec 6) (bytes : List Byte) (h : bytes.length ≤ 32) :
    (blit fb y0 x0 bytes).2 = true ↔ ∃ p, spriteBit bytes y0 x0 p = true ∧ pixel fb p = true := by
  rw [blit, flips_collision _ (nodup_spritePixels bytes y0 x0 0 (by omega))]
  simp [mem_spritePixels_iff_spriteBit bytes y0 x0 _ h]

/-- The bit of the sprite at I on a pixel, by integer arithmetic modulo 32 and 64: what `spriteCovers` says. -/
theorem spriteBit_bytesAtI (s : State) (x y : RegNum) (n : Nat) (p : Pixel) :
    spriteBit (bytesAtI s n) (rowOperand s y) (columnOperand s x) p = true ↔ spriteCovers s x y n p := by
  have hr : (p.1 - rowOperand s y).toNat = (p.1.toNat + 32 - (reg s y).toNat % 32) % 32 := by
    rw [BitVec.toNat_sub]
    simp only [rowOperand, BitVec.extractLsb'_toNat, Nat.shiftRight_zero]
    omega
  have hc : (p.2 - columnOperand s x).toNat = (p.2.toNat + 64 - (reg s x).toNat % 64) % 64 := by
    rw [BitVec.toNat_sub]
    simp only [columnOperand, BitVec.extractLsb'_toNat, Nat.shiftRight_zero]
    omega
  simp only [spriteBit, spriteCovers, hr, hc, bytesAtI, readBytes_getD, Bool.and_eq_true, decide_eq_true_eq]
  split
  · next h => simp [h]
  · next h => simp [h]

end Sys2Proof.Machine
end

