-- ==== Sys2Proof/Laws/PerInstr.lean ====
section
/-! SUPPORT. Statements made of every instruction as syntax, one lemma per constructor. -/
namespace Sys2Proof.Laws.EncodingRow

/-- The instruction is well formed, and its word is a word of its own row of the table of spec/30_encoding.md R96:
`(op & mask) = match`, whatever its operands (R97, R100). -/
def Statement (i : Instr) : Prop := i.wellFormed = true ∧ hitsRow (encode i) (opcodeRow i) = true

theorem cls : Statement .cls := ⟨rfl, rfl⟩
theorem ret : Statement .ret := ⟨rfl, rfl⟩
theorem jp (nnn : BitVec 12) : Statement (.jp nnn) := ⟨rfl, hitsRow_formatA 0x1 nnn⟩
theorem call (nnn : BitVec 12) : Statement (.call nnn) := ⟨rfl, hitsRow_formatA 0x2 nnn⟩
theorem seVxNN (x : RegNum) (nn : Byte) : Statement (.seVxNN x nn) := ⟨rfl, hitsRow_formatI 0x3 x nn⟩
theorem sneVxNN (x : RegNum) (nn : Byte) : Statement (.sneVxNN x nn) := ⟨rfl, hitsRow_formatI 0x4 x nn⟩
theorem seVxVy (x : RegNum) (y : RegNum) : Statement (.seVxVy x y) := ⟨rfl, hitsRow_formatR 0x5 x y 0x0⟩
theorem ldVxNN (x : RegNum) (nn : Byte) : Statement (.ldVxNN x nn) := ⟨rfl, hitsRow_formatI 0x6 x nn⟩
theorem addVxNN (x : RegNum) (nn : Byte) : Statement (.addVxNN x nn) := ⟨rfl, hitsRow_formatI 0x7 x nn⟩
theorem ldVxVy (x : RegNum) (y : RegNum) : Statement (.ldVxVy x y) := ⟨rfl, hitsRow_formatR 0x8 x y 0x0⟩
theorem orVxVy (x : RegNum) (y : RegNum) : Statement (.orVxVy x y) := ⟨rfl, hitsRow_formatR 0x8 x y 0x1⟩
theorem andVxVy (x : RegNum) (y : RegNum) : Statement (.andVxVy x y) := ⟨rfl, hitsRow_formatR 0x8 x y 0x2⟩
theorem xorVxVy (x : RegNum) (y : RegNum) : Statement (.xorVxVy x y) := ⟨rfl, hitsRow_formatR 0x8 x y 0x3⟩
theorem addVxVy (x : RegNum) (y : RegNum) : Statement (.addVxVy x y) := ⟨rfl, hitsRow_formatR 0x8 x y 0x4⟩
theorem subVxVy (x : RegNum) (y : RegNum) : Statement (.subVxVy x y) := ⟨rfl, hitsRow_formatR 0x8 x y 0x5⟩
theorem shrVx (x : RegNum) (y : RegNum) : Statement (.shrVx x y) := ⟨rfl, hitsRow_formatR 0x8 x y 0x6⟩
theorem subnVxVy (x : RegNum) (y : RegNum) : Statement (.subnVxVy x y) := ⟨rfl, hitsRow_formatR 0x8 x y 0x7⟩
theorem shlVx (x : RegNum) (y : RegNum) : Statement (.shlVx x y) := ⟨rfl, hitsRow_formatR 0x8 x y 0xE⟩
theorem sneVxVy (x : RegNum) (y : RegNum) : Statement (.sneVxVy x y) := ⟨rfl, hitsRow_formatR 0x9 x y 0x0⟩
theorem ldI (nnn : BitVec 12) : Statement (.ldI nnn) := ⟨rfl, hitsRow_formatA 0xA nnn⟩
theorem jpV0 (nnn : BitVec 12) : Statement (.jpV0 nnn) := ⟨rfl, hitsRow_formatA 0xB nnn⟩
theorem rnd (x : RegNum) (nn : Byte) : Statement (.rnd x nn) := ⟨rfl, hitsRow_formatI 0xC x nn⟩
theorem drw (x : RegNum) (y : RegNum) (n : BitVec 4) : Statement (.drw x y n) := ⟨rfl, hitsRow_formatD 0xD x y n⟩
theorem skp (x : RegNum) : Statement (.skp x) := ⟨rfl, hitsRow_formatU 0xE x 0x9E⟩
theorem sknp (x : RegNum) : Statement (.sknp x) := ⟨rfl, hitsRow_formatU 0xE x 0xA1⟩
theorem ldVxDt (x : RegNum) : Statement (.ldVxDt x) := ⟨rfl, hitsRow_formatU 0xF x 0x07⟩
theorem ldVxK (x : RegNum) : Statement (.ldVxK x) := ⟨rfl, hitsRow_formatU 0xF x 0x0A⟩
theorem ldDtVx (x : RegNum) : Statement (.ldDtVx x) := ⟨rfl, hitsRow_formatU 0xF x 0x15⟩
theorem ldStVx (x : RegNum) : Statement (.ldStVx x) := ⟨rfl, hitsRow_formatU 0xF x 0x18⟩
theorem addIVx (x : RegNum) : Statement (.addIVx x) := ⟨rfl, hitsRow_formatU 0xF x 0x1E⟩
theorem ldFVx (x : RegNum) : Statement (.ldFVx x) := ⟨rfl, hitsRow_formatU 0xF x 0x29⟩
theorem ldBVx (x : RegNum) : Statement (.ldBVx x) := ⟨rfl, hitsRow_formatU 0xF x 0x33⟩
theorem ldMemVx (x : RegNum) : Statement (.ldMemVx x) := ⟨rfl, hitsRow_formatU 0xF x 0x55⟩
theorem ldVxMem (x : RegNum) : Statement (.ldVxMem x) := ⟨rfl, hitsRow_formatU 0xF x 0x65⟩

end Sys2Proof.Laws.EncodingRow
end

