-- ==== Sys2Proof/Laws/Step.lean ====
section
/-! SUPPORT. What one step can do: which event it serves, and what each event and each phase of the fetch-decode-
execute cycle answers. -/
namespace Sys2Proof.Machine

/-! ## Which event -/

/-- With no event issued by the environment the step is the `step` event. -/
theorem step_default {s : State} (h : s.inputs = []) : step s = stepEvent s := by simp [step, nextEvent, h]

/-- The oldest event issued is served first. -/
theorem step_input {s : State} {e : Event} {rest : List Event} (h : s.inputs = e :: rest) :
    step s = handleEvent e { s with inputs := rest } := by simp [step, nextEvent, h]

theorem stepEvent_running {s : State} (h : s.runState = .running) : stepEvent s = runCycle s := by
  simp [stepEvent, h]

theorem stepEvent_waiting {s : State} (h : s.runState = .waitingForKey) :
    stepEvent s = .next (retireKeyWait s) := by simp [stepEvent, h]

theorem stepEvent_halted {s : State} {r : HaltReason} (h : s.runState = .halted r) : stepEvent s = .next s := by
  simp [stepEvent, h]

/-! ## The cycle -/

theorem runCycle_fetch_error {s : State} {e : HaltReason} (h : fetch s = .error e) : runCycle s = raise e s := by
  simp [runCycle, h]

theorem runCycle_unknown {s : State} {op : Word} (h : fetch s = .ok op) (hd : decode op = none) :
    runCycle s = raise (.unknownInstruction op s.pc) s := by simp [runCycle, h, hd]

theorem runCycle_decoded {s : State} {op : Word} {d : Instr} (h : fetch s = .ok op) (hd : decode op = some d) :
    runCycle s = exec d s := by simp [runCycle, h, hd]

/-- The three things a `step` in `Running` can do (R204, R210). -/
theorem runCycle_cases (s : State) :
    (∃ e, fetch s = .error e ∧ runCycle s = raise e s) ∨
    (∃ op, fetch s = .ok op ∧ decode op = none ∧ runCycle s = raise (.unknownInstruction op s.pc) s) ∨
    (∃ op d, fetch s = .ok op ∧ decode op = some d ∧ runCycle s = exec d s) := by
  cases hf : fetch s with
  | error e => exact .inl ⟨e, rfl, runCycle_fetch_error hf⟩
  | ok op =>
    cases hd : decode op with
    | none => exact .inr (.inl ⟨op, rfl, hd, runCycle_unknown hf hd⟩)
    | some d => exact .inr (.inr ⟨op, d, rfl, hd, runCycle_decoded hf hd⟩)

/-- What a fetch that fails reports (R66). -/
theorem fetch_error_address {s : State} {e : HaltReason} (h : fetch s = .error e) :
    ∃ a : Word, e = .memoryOutOfBounds a ∧ 0x1000 ≤ a.toNat := by
  unfold fetch at h
  split at h
  · next e' he => cases h; exact rangeError_address he
  · cases h

/-! ## The key wait -/

/-- Without a latched key the waiting step changes nothing (R211). -/
theorem retireKeyWait_none {s : State} (h : s.latch = none) : retireKeyWait s = s := by simp [retireKeyWait, h]

/-- With a latched key the waiting step retires the instruction (R211). -/
theorem retireKeyWait_some {s : State} {k : KeyNum} (h : s.latch = some k) :
    retireKeyWait s =
      advance { setReg s (waitDestination s) (k.setWidth 8) with latch := none, runState := .running } := by
  simp [retireKeyWait, h]

/-- The destination of the wait is the X field of the word at PC (R211). -/
theorem waitDestination_eq_opX {s : State} {op : Word} (h : fetch s = .ok op) : waitDestination s = opX op := by
  rw [fetch_inside s (fetch_ok_pc h)] at h
  cases h
  exact ((@BitVec.extractLsb'_append_eq_ite 8 8 _ _ 8 4).trans (by simp [waitDestination])).symm

/-! ## The outputs -/

/-- The row and the column are the high and the low field of the linear index (R31). -/
theorem pixelAtIndex_append (s : State) (row : BitVec 5) (col : BitVec 6) :
    pixelAtIndex s (row ++ col) = pixel s.fb (row, col) := by
  rw [pixelAtIndex, BitVec.extractLsb'_append_eq_left, BitVec.extractLsb'_append_eq_right]

theorem runStateCode_running {s : State} (h : s.runState = .running) : runStateCode s = 0 := by simp [runStateCode, h]
theorem runStateCode_waiting {s : State} (h : s.runState = .waitingForKey) : runStateCode s = 1 := by
  simp [runStateCode, h]
theorem runStateCode_halted {s : State} {r : HaltReason} (h : s.runState = .halted r) : runStateCode s = 2 := by
  simp [runStateCode, h]

/-! ## The other events -/

@[simp] theorem tick_runState (s : State) : (tick s).runState = s.runState := rfl
@[simp] theorem reinit_inputs (s : State) : (reinit s).inputs = s.inputs := rfl
@[simp] theorem reinit_draws (s : State) : (reinit s).draws = s.draws := rfl

/-- `set_pressed` writes the key flag and, when the event qualifies, the latch; nothing else (R221). -/
theorem setPressed_eq (k : KeyNum) (down : Bool) (s : State) :
    setPressed k down s =
      { s with
        keys := s.keys.set k.toNat down k.isLt
        latch := if qualifies k down s then some k else s.latch } := by
  unfold setPressed
  split <;> rfl

/-- `load_program` in the state `init` leaves copies the image or raises the error (R254, R255). -/
theorem loadProgram_boot {s : State} (bytes : List Byte) (h : s = reinit s) :
    loadProgram bytes s =
      if bytes.length ≤ 3584 then .next { s with mem := writeBytes s.mem 0x200 bytes }
      else raise (.programTooLarge bytes.length) s := by
  have : atBoot s = true := beq_iff_eq.mpr h
  by_cases hl : bytes.length ≤ 3584 <;> simp [loadProgram, this, imageWellFormed, maxImageBytes, hl]

/-- `load_program` in any other state has no move (R256). -/
theorem loadProgram_late {s : State} (bytes : List Byte) (h : s ≠ reinit s) :
    loadProgram bytes s = .fault .loadOutsideBoot := by
  have : atBoot s = false := beq_eq_false_iff_ne.mpr h
  simp [loadProgram, this]

end Sys2Proof.Machine
end

