-- ==== Sys2Proof/Tests/Slice0.lean ====
section
/-! SUPPORT. Tests. Expected values are those of spec/95_test_vectors.md, whose vector each test names; the decode
words are written out from the patterns of spec/30_encoding.md R96. The theorems named `witness_` meet the hypotheses
of the obligations, each clause at a boundary value. -/
namespace Sys2Proof.Tests
open Sys2Proof Sys2Proof.Machine

/-! ## Helpers -/

/-- The next state of an outcome. -/
def next? (o : Out) : Option State :=
  match o with
  | .next t => some t
  | _ => none

/-- A field of the state one step after `s`. -/
def afterStep {α : Type} (s : State) (field : State → α) : Option α := (next? (step s)).map field

/-- The reset state with `word` at 0x200 (the start of every vector that gives no other). -/
def start (word : Nat) : State := State.reset.withFetchWord 16 word

/-- The same at another PC. -/
def startAt (pc : Word) (word : Nat) : State := { State.reset with pc := pc }.withFetchWord 16 word

def withRegs (rs : List (RegNum × Byte)) (s : State) : State := rs.foldl (fun s p => setReg s p.1 p.2) s
def withBytes (a : Nat) (bytes : List Byte) (s : State) : State := { s with mem := writeBytes s.mem a bytes }
def withPixels (ps : List Pixel) (s : State) : State := { s with fb := ps.foldl (fun f p => setPixel f p true) s.fb }

/-- A stack of `n` entries in use. -/
def withSp (n : Fin 17) (s : State) : State := { s with sp := n }

/-- Is exactly this list of pixels set? -/
def screenIs (ps : List Pixel) (s : State) : Bool := s.fb == ps.foldl (fun f p => setPixel f p true) clearScreen

/-! ## Well-formedness (spec/70_reset_and_hazards.md R254, R255; spec/30_encoding.md R100) -/

/-- Vectors L1 and L2: 3584 bytes is an image, 3585 bytes is none. -/
theorem test_image_wellFormed :
    imageWellFormed (List.replicate 3584 0xAA) = true ∧ imageWellFormed (List.replicate 3585 0xAA) = false := by
  simp only [imageWellFormed, maxImageBytes, List.length_replicate]; decide

theorem test_instr_wellFormed : (Instr.drw 0xF 0xF 0xF).wellFormed = true := by decide

/-! ## Decoding (spec/95_test_vectors.md 2.1) -/

theorem test_decode_control :
    decode 0b0000000011101110 = some .ret ∧ decode 0b0001101010111100 = some (.jp 0xABC) ∧
    decode 0b0010101010111100 = some (.call 0xABC) ∧ decode 0b0011101001000010 = some (.seVxNN 0xA 0x42) ∧
    decode 0b0100101001000010 = some (.sneVxNN 0xA 0x42) ∧ decode 0b0101101010110000 = some (.seVxVy 0xA 0xB) ∧
    decode 0b1001101010110000 = some (.sneVxVy 0xA 0xB) ∧ decode 0b1011101010111100 = some (.jpV0 0xABC) := by
  decide

theorem test_decode_alu :
    decode 0b0110101000000101 = some (.ldVxNN 0xA 0x05) ∧ decode 0b0111101000000011 = some (.addVxNN 0xA 0x03) ∧
    decode 0b1000101010110000 = some (.ldVxVy 0xA 0xB) ∧ decode 0b1000101010110001 = some (.orVxVy 0xA 0xB) ∧
    decode 0b1000101010110010 = some (.andVxVy 0xA 0xB) ∧ decode 0b1000101010110011 = some (.xorVxVy 0xA 0xB) ∧
    decode 0b1000101010110100 = some (.addVxVy 0xA 0xB) ∧ decode 0b1000101010110101 = some (.subVxVy 0xA 0xB) ∧
    decode 0b1000101010110110 = some (.shrVx 0xA 0xB) ∧ decode 0b1000101010110111 = some (.subnVxVy 0xA 0xB) ∧
    decode 0b1000101010111110 = some (.shlVx 0xA 0xB) ∧ decode 0b1100101000001111 = some (.rnd 0xA 0x0F) := by
  decide

theorem test_decode_index_display_keypad :
    decode 0b1010101010111100 = some (.ldI 0xABC) ∧ decode 0b1111101000011110 = some (.addIVx 0xA) ∧
    decode 0b1111101000101001 = some (.ldFVx 0xA) ∧ decode 0b1111101000110011 = some (.ldBVx 0xA) ∧
    decode 0b1111101001010101 = some (.ldMemVx 0xA) ∧ decode 0b1111101001100101 = some (.ldVxMem 0xA) ∧
    decode 0b0000000011100000 = some .cls ∧ decode 0b1101101010110101 = some (.drw 0xA 0xB 5) ∧
    decode 0b1110101010011110 = some (.skp 0xA) ∧ decode 0b1110101010100001 = some (.sknp 0xA) ∧
    decode 0b1111101000000111 = some (.ldVxDt 0xA) ∧ decode 0b1111101000001010 = some (.ldVxK 0xA) ∧
    decode 0b1111101000010101 = some (.ldDtVx 0xA) ∧ decode 0b1111101000011000 = some (.ldStVx 0xA) := by
  decide

/-- The unknown words the spec lists. -/
theorem test_decode_unknown :
    ([0x0000, 0x00E1, 0x00EF, 0x00FE, 0x0123, 0x0FFF, 0x5121, 0x512F, 0x9121, 0x8128, 0x812D, 0x812F, 0xE000, 0xE19F,
      0xE1A0, 0xE29F, 0xF000, 0xF108, 0xF11F, 0xF130, 0xF175, 0xF185, 0xFFFF] : List Word).all
      (fun w => (decode w).isNone) = true := by
  decide

theorem test_encode_bytes : encodeBytes (.ldVxNN 0xA 0x05) = [0x6A, 0x05] := by decide
theorem test_decode_bytes_short : decodeBytes [0x6A] = .error .tooShort := by rfl
theorem test_table_word : decodeTableWord 16 0xD123 = some (.drw 1 2 3) := by decide

/-! ## Control flow (2.2) -/

/-- T1. -/
theorem test_jp : afterStep (startAt 0x20A 0x1204) State.pc = some 0x204 := by decide
/-- T2. -/
theorem test_jp_high : afterStep (start 0x1FFF) State.pc = some 0xFFF := by decide
/-- T3. -/
theorem test_call : afterStep (startAt 0x204 0x220A) (fun t => (t.stack[0], t.sp, t.pc)) = some (0x206, 1, 0x20A) := by
  decide
/-- T5. -/
theorem test_call_full :
    afterStep (withSp 16 (start 0x2300)) (fun t => (t.runState, t.pc, t.sp)) =
      some (.halted .stackOverflow, 0x200, 16) := by
  decide
/-- T6. -/
theorem test_ret :
    afterStep { startAt 0x20C 0x00EE with sp := 1, stack := State.reset.stack.set 0 0x206 } (fun t => (t.pc, t.sp)) =
      some (0x206, 0) := by
  decide
/-- T7. -/
theorem test_ret_empty : afterStep (start 0x00EE) (fun t => (t.runState, t.pc)) = some (.halted .stackUnderflow, 0x200) := by
  decide
/-- T9. -/
theorem test_jpV0 : afterStep (withRegs [(0, 0xFF)] (start 0xBFFF)) State.pc = some 0x10FE := by decide
/-- T10. -/
theorem test_se_taken : afterStep (startAt 0x208 0x3000) State.pc = some 0x20C := by decide
/-- T11. -/
theorem test_se_not : afterStep (withRegs [(0, 1)] (startAt 0x208 0x3000)) State.pc = some 0x20A := by decide
/-- T12. -/
theorem test_sne_taken : afterStep (withRegs [(3, 0x10)] (startAt 0x300 0x4311)) State.pc = some 0x304 := by decide
/-- T13. -/
theorem test_sne_not : afterStep (withRegs [(3, 0x10)] (startAt 0x300 0x4310)) State.pc = some 0x302 := by decide
/-- T14. -/
theorem test_se_reg : afterStep (withRegs [(1, 0x7F), (2, 0x7F)] (start 0x5120)) State.pc = some 0x204 := by decide
/-- T15. -/
theorem test_se_reg_not : afterStep (withRegs [(1, 0x7F), (2, 0x7E)] (start 0x5120)) State.pc = some 0x202 := by decide
/-- T16. -/
theorem test_sne_reg : afterStep (withRegs [(1, 1), (2, 2)] (start 0x9120)) State.pc = some 0x204 := by decide
/-- T17. -/
theorem test_sne_same : afterStep (withRegs [(1, 1)] (start 0x9110)) State.pc = some 0x202 := by decide

/-! ## Registers and ALU (2.3) -/

/-- A1. -/
theorem test_ldNN : afterStep (start 0x6A05) (fun t => (reg t 0xA, t.pc)) = some (0x05, 0x202) := by decide
/-- A3. -/
theorem test_addNN_no_flag :
    afterStep (withRegs [(0xA, 0x05), (0xF, 0x77)] (start 0x7AFF)) (fun t => (reg t 0xA, reg t VF)) = some (0x04, 0x77) := by
  decide
/-- A4. -/
theorem test_addNN_vf : afterStep (withRegs [(0xF, 0xFF)] (start 0x7F01)) (reg · VF) = some 0 := by decide
/-- A5. -/
theorem test_ld : afterStep (withRegs [(2, 0x33)] (start 0x8120)) (reg · 1) = some 0x33 := by decide
/-- A6. -/
theorem test_or :
    afterStep (withRegs [(1, 0xF0), (2, 0x0F), (0xF, 9)] (start 0x8121)) (fun t => (reg t 1, reg t VF)) = some (0xFF, 9) := by
  decide
/-- A7. -/
theorem test_and :
    afterStep (withRegs [(1, 0xF0), (2, 0x3C), (0xF, 9)] (start 0x8122)) (fun t => (reg t 1, reg t VF)) = some (0x30, 9) := by
  decide
/-- A8. -/
theorem test_xor :
    afterStep (withRegs [(1, 0xF0), (2, 0x3C), (0xF, 9)] (start 0x8123)) (fun t => (reg t 1, reg t VF)) = some (0xCC, 9) := by
  decide
/-- A9. -/
theorem test_add_carry :
    afterStep (withRegs [(0xA, 0xF0), (0xB, 0x20)] (start 0x8AB4)) (fun t => (reg t 0xA, reg t VF)) = some (0x10, 1) := by
  decide
/-- A14. -/
theorem test_add_vf : afterStep (withRegs [(0xF, 0x80)] (start 0x8FF4)) (reg · VF) = some 1 := by decide
/-- A16. -/
theorem test_sub_borrow :
    afterStep (withRegs [(1, 1), (2, 0x10)] (start 0x8125)) (fun t => (reg t 1, reg t VF)) = some (0xF1, 0) := by decide
/-- A17. -/
theorem test_sub_equal :
    afterStep (withRegs [(1, 0x42), (2, 0x42)] (start 0x8125)) (fun t => (reg t 1, reg t VF)) = some (0, 1) := by decide
/-- A19. -/
theorem test_subn :
    afterStep (withRegs [(1, 1), (2, 0x10)] (start 0x8127)) (fun t => (reg t 1, reg t VF)) = some (0x0F, 1) := by decide
/-- A20. -/
theorem test_subn_borrow :
    afterStep (withRegs [(1, 0x10), (2, 1)] (start 0x8127)) (fun t => (reg t 1, reg t VF)) = some (0xF1, 0) := by decide
/-- A22. -/
theorem test_shr :
    afterStep (withRegs [(1, 5), (2, 0xAA)] (start 0x8126)) (fun t => (reg t 1, reg t VF, reg t 2)) = some (2, 1, 0xAA) := by
  decide
/-- A24. -/
theorem test_shr_vf : afterStep (withRegs [(0xF, 3)] (start 0x8F26)) (reg · VF) = some 1 := by decide
/-- A25. -/
theorem test_shl :
    afterStep (withRegs [(1, 0x81), (2, 0xAA)] (start 0x812E)) (fun t => (reg t 1, reg t VF, reg t 2)) = some (2, 1, 0xAA) := by
  decide
/-- A26. -/
theorem test_shl_zero :
    afterStep (withRegs [(1, 0x41), (0xF, 1)] (start 0x812E)) (fun t => (reg t 1, reg t VF)) = some (0x82, 0) := by decide
/-- A28, for the two bytes the environment may deliver. -/
theorem test_rnd :
    reg (rndWith 0xA7 1 0x0F State.reset) 1 = 0x07 ∧ reg (rndWith 0x58 1 0x0F State.reset) 1 = 0x08 := by decide
/-- A30, for every byte the environment may deliver. -/
theorem test_rnd_zero (b : Byte) : reg (rndWith b 1 0x00 (withRegs [(1, 0x55)] State.reset)) 1 = 0 := by
  simp [rndWith]

/-! ## Index register and memory (2.4) -/

/-- I1. -/
theorem test_ldI : afterStep (start 0xA300) (fun t => (t.i, t.pc)) = some (0x300, 0x202) := by decide
/-- I3. -/
theorem test_addI :
    afterStep (withRegs [(2, 1), (0xF, 7)] { start 0xF21E with i := 0xFFF }) (fun t => (t.i, reg t VF)) = some (0x1000, 7) := by
  decide
/-- I4. -/
theorem test_addI_wraps : afterStep (withRegs [(2, 1)] { start 0xF21E with i := 0xFFFF }) State.i = some 0 := by decide
/-- I6, "in general" form: glyph A of FONT_BASE. -/
theorem test_ldF : glyphAddress (lowNibble (withRegs [(0, 0x1A)] State.reset) 0) = BitVec.ofNat 16 (Config.fontBase.val + 50) := by
  rfl
/-- I10. -/
theorem test_ldB :
    afterStep (withRegs [(0, 0x7B)] { start 0xF033 with i := 0xFFD }) (fun t => readBytes t.mem 0xFFD 3) = some [1, 2, 3] := by
  decide
/-- I12. -/
theorem test_ldB_out :
    afterStep (withRegs [(0, 0x7B)] { start 0xF033 with i := 0x1234 }) (fun t => (t.runState, t.pc)) =
      some (.halted (.memoryOutOfBounds 0x1234), 0x200) := by
  decide
/-- I13. -/
theorem test_dump :
    afterStep (withRegs [(0, 0x11), (1, 0x22), (2, 0x33)] { start 0xF155 with i := 0x400 })
      (fun t => (readBytes t.mem 0x400 3, t.i)) = some ([0x11, 0x22, 0], 0x400) := by
  decide
/-- I14. -/
theorem test_dump_out :
    afterStep (withRegs [(0, 0x11), (1, 0x22), (2, 0x33)] { start 0xF255 with i := 0xFFE })
      (fun t => (t.runState, readBytes t.mem 0xFFE 2)) = some (.halted (.memoryOutOfBounds 0x1000), [0, 0]) := by
  decide
/-- I17. -/
theorem test_load :
    afterStep (withRegs [(3, 0x77)] (withBytes 0x300 [2, 5, 4, 9] { start 0xF265 with i := 0x300 }))
      (fun t => (regsUpTo t 3, t.i)) = some ([2, 5, 4, 0x77], 0x300) := by
  decide
/-- I19. -/
theorem test_load_out :
    afterStep (withRegs [(0, 0x55)] { start 0xFF65 with i := 0xFF1 }) (fun t => (t.runState, reg t 0)) =
      some (.halted (.memoryOutOfBounds 0x1000), 0x55) := by
  decide

/-! ## Display (2.5) -/

/-- G1. -/
theorem test_cls :
    afterStep (withRegs [(0xF, 1)] (withPixels [(0, 0), (5, 7), (31, 63)] (start 0x00E0)))
      (fun t => (screenIs [] t, reg t VF)) = some (true, 1) := by
  decide
/-- G5. -/
theorem test_drw_wraps_rows :
    afterStep (withRegs [(1, 0x1F)] (withBytes 0x300 [0x80, 0x80] { start 0xD012 with i := 0x300 }))
      (fun t => (screenIs [(31, 0), (0, 0)] t, reg t VF)) = some (true, 0) := by
  decide
/-- G6. -/
theorem test_drw_collides :
    afterStep (withRegs [(0, 2)] (withPixels [(0, 0), (0, 1), (0, 2)] (withBytes 0x300 [0xF0] { start 0xD011 with i := 0x300 })))
      (fun t => (screenIs [(0, 0), (0, 1), (0, 3), (0, 4), (0, 5)] t, reg t VF)) = some (true, 1) := by
  decide

/-! ## Keypad, timers, the other events (2.6, 2.7) -/

/-- K3. -/
theorem test_skp : afterStep (withRegs [(2, 0x17)] (setKey (start 0xE29E) 7 true)) State.pc = some 0x204 := by decide
/-- K2. -/
theorem test_skp_not : afterStep (withRegs [(2, 5)] (start 0xE29E)) State.pc = some 0x202 := by decide
/-- K4. -/
theorem test_sknp : afterStep (withRegs [(3, 7)] (startAt 0x206 0xE3A1)) State.pc = some 0x20A := by decide
/-- K5. -/
theorem test_sknp_not : afterStep (withRegs [(3, 7)] (setKey (startAt 0x206 0xE3A1) 7 true)) State.pc = some 0x208 := by decide
/-- K7. -/
theorem test_ldVxDt : afterStep { start 0xF407 with dt := 5 } (fun t => (reg t 4, t.dt)) = some (5, 5) := by decide
/-- K8. -/
theorem test_ldDtVx : afterStep (withRegs [(3, 7)] { start 0xF315 with dt := 0x20 }) State.dt = some 7 := by decide
/-- K9. -/
theorem test_ldStVx : afterStep (withRegs [(0, 0x3C)] (start 0xF018)) (fun t => (t.st, soundActive t)) = some (0x3C, true) := by
  decide
/-- W1, first event. -/
theorem test_wait_begins : afterStep (start 0xF30A) (fun t => (t.runState, t.pc, t.latch)) = some (.waitingForKey, 0x200, none) := by
  decide
/-- W1, last event. -/
theorem test_wait_retires :
    afterStep { start 0xF30A with runState := .waitingForKey, latch := some 7 }
      (fun t => (reg t 3, t.pc, t.runState, t.latch)) = some (7, 0x202, .running, none) := by
  decide
/-- W1 and W6: the release of a pressed key is latched, the release of a key that is up is not. -/
theorem test_release :
    (setPressed 7 false (setKey { State.reset with runState := .waitingForKey } 7 true)).latch = some 7 ∧
    (setPressed 9 false { State.reset with runState := .waitingForKey }).latch = none := by
  decide
/-- TK2 and TK4, one tick. -/
theorem test_tick :
    (tick { State.reset with dt := 2, st := 5 }).dt = 1 ∧ (tick { State.reset with dt := 2, st := 5 }).st = 4 ∧
    tick State.reset = State.reset := by
  decide
/-- F3. -/
theorem test_fetch_high :
    afterStep { State.reset with pc := 0xFFFF } State.runState = some (.halted (.memoryOutOfBounds 0xFFFF)) := by decide
/-- F5: an odd PC executes. -/
theorem test_odd_pc : afterStep (startAt 0x201 0x6A05) (fun t => (reg t 0xA, t.pc)) = some (5, 0x203) := by decide
/-- L3: nothing loaded, the first step halts. -/
theorem test_empty_program :
    afterStep State.reset (fun t => (t.runState, errCode t)) = some (.halted (.unknownInstruction 0 0x200), 1) := by decide
/-- L4: the image is one byte, the fetched word is 0x1200. -/
theorem test_load_program :
    (next? (loadProgram [0x12] State.reset)).map (fun t => (t.mem, (fetch t).toOption)) = some ([(0x200, 0x12)], some 0x1200) := by
  decide
/-- L2. -/
theorem test_load_too_large :
    loadProgram (List.replicate 3585 0xAA) State.reset =
      .next { State.reset with runState := .halted (.programTooLarge 3585) } := by
  rw [loadProgram_boot _ rfl, List.length_replicate, if_neg (by decide)]; rfl
/-- H2. -/
theorem test_init_leaves_halted :
    afterStep { State.reset with pc := 0x300, dt := 3, runState := .halted .stackOverflow, inputs := [.init] }
      (fun t => t == State.reset) = some true := by
  decide

/-! ## Witnesses: states and operands that meet the hypotheses of the obligations -/

/-- O3, O4, O5. -/
theorem witness_decode :
    decode 0x6A05 = some (.ldVxNN 0xA 0x05) ∧ decode 0x5121 = none ∧ opMajor 0x00EE = 0 ∧ opMajor 0x0FFF = 0 := by decide

/-- Fetch: the last PC that is inside, the first that is outside, and the one between. -/
theorem witness_fetch :
    ({ State.reset with pc := 0xFFE }.pc.toNat + 1 ≤ 0xFFF) ∧ 0x1000 ≤ { State.reset with pc := 0x1000 }.pc.toNat ∧
    { State.reset with pc := 0xFFF }.pc = 0xFFF := by decide

/-- The step in `Running`: a fetch error, an unknown word, and an instruction, at the last PC. -/
theorem witness_running_step :
    (State.reset.runState = .running ∧ State.reset.inputs = []) ∧
    fetch { State.reset with pc := 0xFFF } = .error (.memoryOutOfBounds 0x1000) ∧
    (fetch (startAt 0xFFE 0x5121) = .ok 0x5121 ∧ decode 0x5121 = none) ∧
    fetch (startAt 0xFFE 0x00E0) = .ok 0x00E0 ∧ decode 0x00E0 = some .cls := by
  exact ⟨⟨rfl, rfl⟩, rfl, ⟨rfl, rfl⟩, rfl, rfl⟩

/-- The queue holds an event, one for each kind. -/
theorem witness_inputs :
    ∀ e ∈ ([.init, .loadProgram [], .step, .tick, .setPressed 7 true] : List Event),
      { State.reset with inputs := [e] }.inputs = e :: [] := by decide

/-- The waiting step without and with a latched key, and the register its instruction names. -/
theorem witness_waiting_step :
    let s := { start 0xFF0A with runState := .waitingForKey }
    s.inputs = [] ∧ s.latch = none ∧ s.pc.toNat ≤ 0xFFF ∧ { s with latch := some 0xF }.latch = some 0xF ∧
    VF.toNat = (readByte s.mem s.pc.toNat).toNat % 16 := by decide

theorem witness_halted_step :
    { State.reset with runState := .halted .stackOverflow }.runState = .halted .stackOverflow ∧
    State.reset.inputs = [] := by decide

/-- A `set_pressed` that qualifies and two that do not. -/
theorem witness_set_pressed :
    let s := setKey { State.reset with runState := .waitingForKey } 0xF true
    (s.runState = .waitingForKey ∧ key s 0xF = true ∧ false = false) ∧
    ¬ (s.runState = .waitingForKey ∧ key s 0 = true ∧ false = false) ∧ (0 : KeyNum) ≠ 0xF := by decide

/-- `load_program` in the reset state, the largest image and one byte more; edges of the memory it leaves alone. -/
theorem witness_load_program :
    State.reset = reinit State.reset ∧ (List.replicate 3584 (0xAA : Byte)).length ≤ 3584 ∧
    3584 < (List.replicate 3585 (0xAA : Byte)).length ∧ 3583 < (List.replicate 3584 (0xAA : Byte)).length ∧
    0x1FF < 0x200 ∧ 0x200 + (List.replicate 3584 (0xAA : Byte)).length ≤ 0x1000 := by
  simp only [List.length_replicate]; decide

theorem witness_late_load : start 0x1200 ≠ reinit (start 0x1200) := by decide

/-- An event other than `step` and `init` with a next state. -/
theorem witness_other_events :
    Event.tick ≠ .step ∧ Event.tick ≠ .init ∧ handleEvent .tick State.reset = .next (tick State.reset) ∧
    handleEvent (.setPressed 0xF true) State.reset = .next (setPressed 0xF true State.reset) ∧
    handleEvent (.loadProgram []) State.reset = .next State.reset := by
  exact ⟨by decide, by decide, rfl, rfl, rfl⟩

/-- The transition table: each row's event has a next state, and the rows of `step` have their states. -/
theorem witness_transitions :
    (∃ t, handleEvent .init State.reset = .next t) ∧ (∃ t, handleEvent (.loadProgram [0x12]) State.reset = .next t) ∧
    (∃ t, handleEvent .step { State.reset with runState := .halted .stackUnderflow } = .next t) ∧
    (∃ t, handleEvent .step { start 0xF30A with runState := .waitingForKey } = .next t) ∧
    (∃ t, handleEvent .step { start 0xF30A with runState := .waitingForKey, latch := some 0 } = .next t) ∧
    (∃ t, handleEvent .step (start 0xF30A) = .next t ∧ fetch (start 0xF30A) = .ok 0xF30A ∧ decode 0xF30A = some (.ldVxK 3)) ∧
    (∃ t, handleEvent .step (start 0x00E0) = .next t ∧ fetch (start 0x00E0) = .ok 0x00E0 ∧ decode 0x00E0 = some .cls ∧
      (∀ r, ¬ raises .cls (start 0x00E0) r)) ∧
    (∃ t, handleEvent .step { State.reset with pc := 0xFFF } = .next t) ∧
    (∃ t, handleEvent .step (start 0x5121) = .next t ∧ fetch (start 0x5121) = .ok 0x5121 ∧ decode 0x5121 = none) ∧
    ∃ t, handleEvent .step (start 0x00EE) = .next t ∧ fetch (start 0x00EE) = .ok 0x00EE ∧ decode 0x00EE = some .ret ∧
      raises .ret (start 0x00EE) .stackUnderflow :=
  ⟨⟨_, rfl⟩, ⟨_, rfl⟩, ⟨_, rfl⟩, ⟨_, rfl⟩, ⟨_, rfl⟩, ⟨_, rfl, rfl, rfl⟩, ⟨_, rfl, rfl, rfl, fun _ => id⟩, ⟨_, rfl⟩,
    ⟨_, rfl, rfl, rfl⟩, ⟨_, rfl, rfl, rfl, rfl, rfl⟩⟩

/-- Every error an instruction raises, at the first operand that raises it; `raises` is empty one operand before. -/
theorem witness_raises :
    raises (.call 0) (withSp 16 State.reset) .stackOverflow ∧ raises .ret State.reset .stackUnderflow ∧
    raises (.drw 0 0 2) { State.reset with i := 0xFFF } (.memoryOutOfBounds 0x1000) ∧
    raises (.ldBVx 0) { State.reset with i := 0xFFE } (.memoryOutOfBounds 0x1000) ∧
    raises (.ldMemVx 0xF) { State.reset with i := 0xFF1 } (.memoryOutOfBounds 0x1000) ∧
    raises (.ldVxMem 0) { State.reset with i := 0xFFFF } (.memoryOutOfBounds 0xFFFF) ∧
    (∀ e, ¬ raises (.ldBVx 0) { State.reset with i := 0xFFD } e) ∧ ∀ e, ¬ raises .cls State.reset e := by
  simp only [raises, runsOut, outOfBoundsAtI]
  refine ⟨by decide, by decide, by decide, by decide, by decide, by decide, ?_, fun _ => id⟩
  exact fun e h => absurd h.1 (by decide)

/-- A step in `Running` that ends in `Halted`, and a step in `Halted`. -/
theorem witness_halting_step :
    State.reset.runState = .running ∧ State.reset.inputs = [] ∧
    (∃ t, step State.reset = .next t ∧ t.runState = .halted (.unknownInstruction 0 0x200)) ∧
    ∃ t, step { State.reset with runState := .halted .stackOverflow } = .next t := by
  exact ⟨rfl, rfl, ⟨_, rfl, rfl⟩, ⟨_, rfl⟩⟩

/-- Running, waiting, and so not halted; halted, for each reason. -/
theorem witness_status :
    State.reset.runState = .running ∧ { State.reset with runState := .waitingForKey }.runState = .waitingForKey ∧
    isHalted { State.reset with runState := .halted .stackOverflow } ∧ ¬ isHalted State.reset ∧
    ∀ r ∈ ([.unknownInstruction 0xFFFF 0x200, .memoryOutOfBounds 0x1000, .stackOverflow, .stackUnderflow,
      .programTooLarge 3585] : List HaltReason), { State.reset with runState := .halted r }.runState = .halted r := by
  refine ⟨rfl, rfl, ⟨_, rfl⟩, ?_, by decide⟩
  rintro ⟨r, h⟩
  cases h

/-- A core waiting at an FX0A with one address on the stack and a latched key. -/
def waitingCore : State := { start 0xF30A with runState := .waitingForKey, sp := 1, latch := some 7 }

/-- The invariant is met by it. -/
theorem witness_invariant : StateInv waitingCore where
  memory := by decide
  latch := fun h => by cases h
  waiting := fun _ => ⟨0xF30A, 3, rfl, rfl⟩
  pc := by decide
  stack := by decide
  record := fun _ h => by cases h

/-- It has a next state. -/
theorem witness_invariant_step : ∃ t, step waitingCore = .next t := ⟨_, rfl⟩

/-- An instruction with a next state, and a store that changes a byte. -/
theorem witness_exec_next :
    (∃ t, exec .cls State.reset = .next t) ∧
    ∃ t, exec (.ldMemVx 0) (withRegs [(0, 0x11)] { State.reset with i := 0xFFF }) = .next t ∧
      readByte t.mem 0xFFF ≠ readByte (withRegs [(0, 0x11)] { State.reset with i := 0xFFF }).mem 0xFFF := by
  exact ⟨⟨_, rfl⟩, ⟨_, rfl, by decide⟩⟩

/-- VF written as a flag, and as an ordinary destination. -/
theorem witness_vf :
    (∃ t, exec (.addVxVy 1 2) (withRegs [(0xF, 5)] State.reset) = .next t ∧
      (∀ e, ¬ raises (.addVxVy 1 2) (withRegs [(0xF, 5)] State.reset) e) ∧
      reg t VF ≠ reg (withRegs [(0xF, 5)] State.reset) VF) ∧
    ∃ t, exec (.ldVxNN VF 9) State.reset = .next t ∧ reg t VF ≠ reg State.reset VF := by
  exact ⟨⟨_, rfl, fun _ => id, by decide⟩, ⟨_, rfl, by decide⟩⟩

/-- CALL and RET: the stack empty, with room for one, with one entry, full. -/
theorem witness_stack :
    (withSp 16 State.reset).sp.val = 16 ∧ (withSp 15 State.reset).sp.val < 16 ∧ (withSp 0 State.reset).sp.val = 0 ∧
    (withSp 1 State.reset).sp.val = (0 : Fin 16).val + 1 ∧ (withSp 16 State.reset).sp.val = (15 : Fin 16).val + 1 := by
  decide

/-- The jump to itself. -/
theorem witness_self_jump :
    let s := startAt 0x300 0x1300
    s.runState = .running ∧ s.inputs = [] ∧ s.pc.toNat = (0x300#12).toNat ∧ fetch s = .ok (0x1#4 ++ 0x300#12) := by
  exact ⟨rfl, rfl, rfl, rfl⟩

/-- A pixel of the last row and column has the last index, 2047 (spec/10_state.md R31), and the outputs show it. -/
theorem test_pixel_index :
    pixelAtIndex (withPixels [(31, 63)] State.reset) 2047 = true ∧ pixelAtIndex (withPixels [(1, 0)] State.reset) 64 = true ∧
    pixelAtIndex (withPixels [(1, 0)] State.reset) 63 = false := by decide

/-- A destination other than VF. -/
theorem witness_not_vf : (0 : RegNum) ≠ VF ∧ (0xE : RegNum) ≠ VF := by decide

/-- The runs at I: the last that fit and the first that do not. -/
theorem witness_memory_runs :
    (0xFFD#16).toNat + 2 ≤ 0xFFF ∧ (0xFFE#16).toNat + 2 > 0xFFF ∧
    (0xFF0#16).toNat + (0xF : RegNum).toNat ≤ 0xFFF ∧ (0xFF1#16).toNat + (0xF : RegNum).toNat > 0xFFF ∧
    (0xFFF#16).toNat + (0 : RegNum).toNat ≤ 0xFFF ∧ (0x1000#16).toNat + (0 : RegNum).toNat > 0xFFF := by decide

/-- FX55 with I just after itself. -/
theorem witness_store_then_fetch :
    let s := { startAt 0xFFC 0xF155 with i := 0xFFE }
    1 ≤ (1 : RegNum).toNat ∧ s.i.toNat = s.pc.toNat + 2 ∧ s.i.toNat + (1 : RegNum).toNat ≤ 0xFFF := by decide

/-- A one-pixel sprite in the last byte of memory, over a set pixel. -/
def cornerSprite : State := withPixels [(0, 0)] (withBytes 0xFFF [0x80] { State.reset with i := 0xFFF })

/-- DRW: the range conditions, a covered pixel that is set, and a display with no pixel set. -/
theorem witness_drw :
    ((2 : BitVec 4) ≠ 0 ∧ (0xFFF#16).toNat + (2 : BitVec 4).toNat - 1 > 0xFFF) ∧
    (0xFFF#16).toNat + (1 : BitVec 4).toNat - 1 ≤ 0xFFF ∧
    (spriteCovers cornerSprite 0 0 1 (0, 0) ∧ pixel cornerSprite.fb (0, 0) = true ∧
      ¬ spriteCovers cornerSprite 0 0 1 (0, 1)) ∧
    ∀ p, pixel State.reset.fb p = false := by
  simp only [spriteCovers]
  exact ⟨by decide, by decide, by decide, pixel_clearScreen⟩

/-- The key of the low nibble. -/
theorem witness_key_of_register :
    (0x7 : KeyNum).toNat = (reg (withRegs [(2, 0x17)] State.reset) 2).toNat % 16 := by decide

/-- The key wait with its four events. -/
theorem witness_key_wait :
    let s := { start 0xF30A with inputs := [.step, .setPressed 7 true, .setPressed 7 false, .step] }
    s.runState = .running ∧ fetch s = .ok 0xF30A ∧ decode 0xF30A = some (.ldVxK 3) := by
  exact ⟨rfl, rfl, rfl⟩

end Sys2Proof.Tests
end

section
/-! The scope (spec/00_scope.md): the events of the block and the order in which a step serves them. -/
namespace Sys2Proof.Proofs.Scope
open Sys2Proof Sys2Proof.Machine

/-- Settles O8: with the queue not empty, `step` handles its oldest event (`step_input`), and the handler gives each
kind of event the meaning named in the statement. -/
theorem stepServesTheOldestEvent : Obligations.StepServesTheOldestEvent := by
  intro s e rest h
  rw [step_input h]
  cases e with
  | init => rfl
  | loadProgram bytes => rfl
  | step => rfl
  | tick => rfl
  | setPressed k down => rfl

end Sys2Proof.Proofs.Scope
end

section
/-! The frame of every instruction (spec/10_state.md R20 to R33): the updates of the state compose into `SameOutside`,
and `exec_cases` says once, for every instruction, that it raises its error or stays inside its footprint. -/
namespace Sys2Proof.Machine

/-! ## Frames of the updates -/

section
variable {f : Footprint} {s t : State}

theorem SameOutside.refl (f : Footprint) (s : State) : SameOutside f s s where
  regs _ _ := rfl
  index _ := rfl
  stack _ := ⟨rfl, rfl⟩
  delayTimer _ := rfl
  soundTimer _ := rfl
  memory _ _ := rfl
  screen _ := rfl
  keys := rfl
  latch _ := rfl
  run _ := rfl
  inputs := rfl
  draws _ := rfl

theorem SameOutside.then_setPc (h : SameOutside f s t) (a : Word) : SameOutside f s (setPc t a) := { h with }

theorem SameOutside.then_advance (h : SameOutside f s t) : SameOutside f s (advance t) := h.then_setPc _

theorem SameOutside.then_skipIf (h : SameOutside f s t) (c : Bool) : SameOutside f s (skipIf c t) := by
  cases c with
  | false => exact h.then_setPc _
  | true => exact h.then_setPc _

theorem SameOutside.then_setReg (h : SameOutside f s t) {x : RegNum} (hx : x ∈ f.regs) (b : Byte) :
    SameOutside f s (setReg t x b) :=
  { h with
    regs := fun r hr => by
      have hxr : x ≠ r := fun e => hr (e ▸ hx)
      rw [reg_setReg, if_neg hxr, h.regs r hr] }

theorem SameOutside.then_setRegThenFlag (h : SameOutside f s t) {x : RegNum} (hx : x ∈ f.regs) (hvf : VF ∈ f.regs)
    (b : Byte) (c : Bool) : SameOutside f s (setRegThenFlag t x b c) :=
  (h.then_setReg hx b).then_setReg hvf _

theorem SameOutside.then_setRegsFrom (h : SameOutside f s t) (bytes : List Byte) (k : Nat)
    (hk : ∀ j, j < bytes.length → BitVec.ofNat 4 (k + j) ∈ f.regs) : SameOutside f s (setRegsFrom t k bytes) := by
  induction bytes generalizing t k with
  | nil => exact h
  | cons x rest ih =>
    have hx : BitVec.ofNat 4 k ∈ f.regs := hk 0 (Nat.succ_pos _)
    refine ih (h.then_setReg hx x) (k + 1) fun j hj => ?_
    rw [Nat.add_assoc, Nat.add_comm 1 j]
    exact hk (j + 1) (Nat.succ_lt_succ hj)

theorem SameOutside.then_storeAtI (h : SameOutside f s t) (bytes : List Byte)
    (hb : ∀ a ∈ addressRun t.i bytes.length, a ∈ f.memory) : SameOutside f s (storeAtI t bytes) :=
  { h with
    memory := fun a ha => by
      have hout : a < t.i.toNat ∨ t.i.toNat + bytes.length ≤ a := by
        by_contra hin
        refine ha (hb a (List.mem_map.mpr ⟨a - t.i.toNat, List.mem_range.mpr ?_, ?_⟩)) <;> omega
      rw [storeAtI_mem, readByte_writeBytes_outside _ _ _ _ hout, h.memory a ha] }

end

theorem mem_addressRun (base : Word) (n a : Nat) :
    a ∈ addressRun base n ↔ base.toNat ≤ a ∧ a < base.toNat + n := by
  simp only [addressRun, List.mem_map, List.mem_range]
  constructor
  · rintro ⟨k, hk, rfl⟩
    omega
  · rintro ⟨hle, hlt⟩
    exact ⟨a - base.toNat, by omega, by omega⟩

/-! ## The outcomes of an instruction -/

/-- What the instruction may change in `s` beside the PC when it raises no error (spec/30_encoding.md R96). -/
def execFootprint (d : Instr) (s : State) : Footprint :=
  match d with
  | .cls => { screen := true }
  | .ret | .call _ => { stack := true }
  | .ldVxNN x _ | .addVxNN x _ | .ldVxVy x _ | .orVxVy x _ | .andVxVy x _ | .xorVxVy x _ | .ldVxDt x => { regs := [x] }
  | .addVxVy x _ | .subVxVy x _ | .shrVx x _ | .subnVxVy x _ | .shlVx x _ => { regs := [x, VF] }
  | .ldI _ | .addIVx _ | .ldFVx _ => { index := true }
  | .rnd x _ => { regs := [x], draws := true }
  | .drw _ _ _ => { regs := [VF], screen := true }
  | .ldVxK _ => { latch := true, run := true }
  | .ldDtVx _ => { delayTimer := true }
  | .ldStVx _ => { soundTimer := true }
  | .ldBVx _ => { memory := addressRun s.i 3 }
  | .ldMemVx x => { memory := addressRun s.i (x.toNat + 1) }
  | .ldVxMem x => { regs := (List.range (x.toNat + 1)).map (BitVec.ofNat 4) }
  | _ => {}

/-- What an access at I that answers a next state can be: its error (R65, R203), or its effect inside the memory. -/
theorem withRange_next {n : Nat} {s t : State} {effect : Out} (h : withRange s.i n s effect = .next t) :
    (runsOut s n ∧ t = { s with runState := .halted (outOfBoundsAtI s) }) ∨ (¬ runsOut s n ∧ effect = .next t) := by
  by_cases hr : runsOut s n
  · rw [withRange_outside s effect hr] at h
    cases h
    exact .inl ⟨hr, rfl⟩
  · have hin : n = 0 ∨ s.i.toNat + n - 1 ≤ 0xFFF := by unfold runsOut at hr; omega
    rw [withRange_inside s effect hin] at h
    exact .inr ⟨hr, h⟩

/-- RET halts on an empty stack and otherwise goes to the entry below SP, which stays in its place (R122). -/
theorem execRet_next {s t : State} (h : exec .ret s = .next t) :
    (s.sp.val = 0 ∧ t = { s with runState := .halted .stackUnderflow }) ∨
    ∃ j : Fin 16, s.sp.val = j.val + 1 ∧
      t = { s with pc := s.stack[j], sp := ⟨j.val, by omega⟩ } := by
  rcases Nat.eq_zero_or_pos s.sp.val with hsp | hsp
  · simp only [exec, execRet, pop_empty s hsp] at h
    cases h
    exact .inl ⟨hsp, rfl⟩
  · simp only [exec, execRet, pop_used s hsp] at h
    cases h
    exact .inr ⟨⟨s.sp.val - 1, by omega⟩, (Nat.sub_add_cancel hsp).symm, rfl⟩

/-- CALL halts on a full stack and otherwise puts the return address at SP (R121). -/
theorem execCall_next {nnn : BitVec 12} {s t : State} (h : exec (.call nnn) s = .next t) :
    (s.sp.val = 16 ∧ t = { s with runState := .halted .stackOverflow }) ∨
    ∃ hsp : s.sp.val < 16,
      t = { s with pc := addressOperand nnn, stack := s.stack.set s.sp.val (s.pc + 2) hsp,
                   sp := ⟨s.sp.val + 1, by omega⟩ } := by
  rcases Nat.lt_or_eq_of_le (Nat.le_of_lt_succ s.sp.isLt) with hsp | hsp
  · simp only [exec, execCall, push_room s _ hsp] at h
    cases h
    exact .inr ⟨hsp, rfl⟩
  · simp only [exec, execCall, push_full s _ hsp] at h
    cases h
    exact .inl ⟨hsp, rfl⟩

/-- An instruction that answers a next state has raised its error and changed nothing else (R201, R203), or has
changed nothing outside its footprint. -/
theorem exec_cases {d : Instr} {s t : State} (h : exec d s = .next t) :
    (∃ e, raises d s e ∧ t = { s with runState := .halted e }) ∨ SameOutside (execFootprint d s) s t := by
  have start := SameOutside.refl (execFootprint d s) s
  cases d with
  | ret =>
    rcases execRet_next h with ⟨hsp, rfl⟩ | ⟨j, hsp, rfl⟩
    · exact .inl ⟨_, ⟨hsp, rfl⟩, rfl⟩
    · exact .inr { start with stack := nofun }
  | call nnn =>
    rcases execCall_next h with ⟨hsp, rfl⟩ | ⟨hsp, rfl⟩
    · exact .inl ⟨_, ⟨hsp, rfl⟩, rfl⟩
    · exact .inr { start with stack := nofun }
  | drw x y n =>
    rcases withRange_next h with ⟨hr, rfl⟩ | ⟨-, h⟩
    · exact .inl ⟨_, ⟨hr, rfl⟩, rfl⟩
    · cases h
      have drawn : SameOutside (execFootprint (.drw x y n) s) s
          { s with fb := (blit s.fb (rowOperand s y) (columnOperand s x) (bytesAtI s n.toNat)).1 } :=
        { start with screen := nofun }
      exact .inr (drawn.then_setReg (List.mem_singleton_self VF) _).then_advance
  | ldBVx x =>
    rcases withRange_next h with ⟨hr, rfl⟩ | ⟨-, h⟩
    · exact .inl ⟨_, ⟨hr, rfl⟩, rfl⟩
    · cases h
      exact .inr (start.then_storeAtI (decimalDigits (reg s x)) fun _ ha => ha).then_advance
  | ldMemVx x =>
    rcases withRange_next h with ⟨hr, rfl⟩ | ⟨-, h⟩
    · exact .inl ⟨_, ⟨hr, rfl⟩, rfl⟩
    · cases h
      refine .inr (start.then_storeAtI _ fun _ ha => ?_).then_advance
      rwa [regsUpTo_length] at ha
  | ldVxMem x =>
    rcases withRange_next h with ⟨hr, rfl⟩ | ⟨-, h⟩
    · exact .inl ⟨_, ⟨hr, rfl⟩, rfl⟩
    · cases h
      refine .inr (start.then_setRegsFrom _ 0 fun j hj => ?_).then_advance
      rw [bytesAtI, readBytes_length] at hj
      exact List.mem_map.mpr ⟨j, List.mem_range.mpr hj, by rw [Nat.zero_add]⟩
  | cls =>
    cases h
    exact .inr { start with screen := nofun }
  | ldI nnn =>
    cases h
    exact .inr { start with index := nofun }
  | addIVx x =>
    cases h
    exact .inr { start with index := nofun }
  | ldFVx x =>
    cases h
    exact .inr { start with index := nofun }
  | ldVxK x =>
    cases h
    exact .inr { start with latch := nofun, run := nofun }
  | ldDtVx x =>
    cases h
    exact .inr { start with delayTimer := nofun }
  | ldStVx x =>
    cases h
    exact .inr { start with soundTimer := nofun }
  | rnd x nn =>
    cases h
    exact .inr { start.then_setReg (List.mem_singleton_self x) _ with draws := nofun }
  | jp nnn | jpV0 nnn =>
    cases h
    exact .inr (start.then_setPc _)
  | seVxNN x nn | sneVxNN x nn | seVxVy x y | sneVxVy x y | skp x | sknp x =>
    cases h
    exact .inr (start.then_skipIf _)
  | ldVxNN x nn | addVxNN x nn | ldVxVy x y | orVxVy x y | andVxVy x y | xorVxVy x y | ldVxDt x =>
    cases h
    exact .inr (start.then_setReg (List.mem_singleton_self x) _).then_advance
  | addVxVy x y | subVxVy x y | shrVx x y | subnVxVy x y | shlVx x y =>
    cases h
    have hvf : VF ∈ [x, VF] := List.mem_cons_of_mem _ List.mem_cons_self
    exact .inr (start.then_setRegThenFlag List.mem_cons_self hvf _ _).then_advance

end Sys2Proof.Machine
end

section
/-! What the instructions and the events do to the pieces that the invariant of reachable states speaks of
(spec/10_state.md R25, R38): the memory, the PC, the stack, the latch and the run state. -/
namespace Sys2Proof.Machine

/-! ## Instructions -/

/-- The memory after an instruction is the old one, or the old one with a run stored at I, inside the memory. -/
theorem exec_mem_cases {d : Instr} {s t : State} (h : exec d s = .next t) :
    t.mem = s.mem ∨
      ∃ bytes, t.mem = writeBytes s.mem s.i.toNat bytes ∧ s.i.toNat + bytes.length ≤ lastAddress + 1 := by
  cases d with
  | ldBVx x =>
    rcases withRange_next h with ⟨-, rfl⟩ | ⟨hin, h⟩
    · exact .inl rfl
    · cases h
      refine .inr ⟨decimalDigits (reg s x), rfl, ?_⟩
      simp only [runsOut, decimalDigits_length, lastAddress] at hin ⊢
      omega
  | ldMemVx x =>
    rcases withRange_next h with ⟨-, rfl⟩ | ⟨hin, h⟩
    · exact .inl rfl
    · cases h
      refine .inr ⟨regsUpTo s x, rfl, ?_⟩
      simp only [runsOut, regsUpTo_length, lastAddress] at hin ⊢
      omega
  | ret =>
    rcases execRet_next h with ⟨-, rfl⟩ | ⟨j, -, rfl⟩
    · exact .inl rfl
    · exact .inl rfl
  | call nnn =>
    rcases execCall_next h with ⟨-, rfl⟩ | ⟨-, rfl⟩
    · exact .inl rfl
    · exact .inl rfl
  | drw x y n =>
    rcases withRange_next h with ⟨-, rfl⟩ | ⟨-, h⟩
    · exact .inl rfl
    · cases h
      exact .inl rfl
  | ldVxMem x =>
    rcases withRange_next h with ⟨-, rfl⟩ | ⟨-, h⟩
    · exact .inl rfl
    · cases h
      rw [advance_mem, setRegsFrom_eq]
      exact .inl rfl
  | seVxNN x nn | sneVxNN x nn | seVxVy x y | sneVxVy x y | skp x | sknp x =>
    cases h
    exact .inl (skipIf_mem _ _)
  | _ =>
    cases h
    exact .inl rfl

theorem addressOperand_toNat (nnn : BitVec 12) : (addressOperand nnn).toNat = nnn.toNat := by
  rw [addressOperand, BitVec.toNat_setWidth]
  exact Nat.mod_eq_of_lt (nnn.isLt.trans (by decide))

theorem regAsWord_toNat (s : State) (x : RegNum) : (regAsWord s x).toNat = (reg s x).toNat := by
  rw [regAsWord, BitVec.toNat_setWidth]
  exact Nat.mod_eq_of_lt ((reg s x).isLt.trans (by decide))

/-- Where the PC can be after an instruction: at it, one or two slots on, at a stated address, which is at most
0xFFF + 0xFF (R123), or at an entry of the stack in use (R22 to R25). -/
theorem exec_pc_cases {d : Instr} {s t : State} (h : exec d s = .next t) :
    t.pc = s.pc ∨ t.pc = s.pc + 2 ∨ t.pc = s.pc + 4 ∨ t.pc.toNat ≤ 0x10FE ∨
      ∃ j : Fin 16, j.val < s.sp.val ∧ t.pc = s.stack[j] := by
  cases d with
  | jp nnn =>
    cases h
    have := nnn.isLt
    refine .inr (.inr (.inr (.inl ?_)))
    rw [setPc_pc, addressOperand_toNat]
    omega
  | jpV0 nnn =>
    cases h
    have := nnn.isLt
    have := (reg s 0).isLt
    refine .inr (.inr (.inr (.inl ?_)))
    rw [setPc_pc, BitVec.toNat_add, addressOperand_toNat, regAsWord_toNat]
    omega
  | call nnn =>
    rcases execCall_next h with ⟨-, rfl⟩ | ⟨-, rfl⟩
    · exact .inl rfl
    · have := nnn.isLt
      have := addressOperand_toNat nnn
      exact .inr (.inr (.inr (.inl (show (addressOperand nnn).toNat ≤ 0x10FE by omega))))
  | ret =>
    rcases execRet_next h with ⟨-, rfl⟩ | ⟨j, hj, rfl⟩
    · exact .inl rfl
    · exact .inr (.inr (.inr (.inr ⟨j, by omega, rfl⟩)))
  | drw x y n | ldBVx x | ldMemVx x =>
    rcases withRange_next h with ⟨-, rfl⟩ | ⟨-, h⟩
    · exact .inl rfl
    · cases h
      exact .inr (.inl rfl)
  | ldVxMem x =>
    rcases withRange_next h with ⟨-, rfl⟩ | ⟨-, h⟩
    · exact .inl rfl
    · cases h
      rw [advance_pc, setRegsFrom_eq]
      exact .inr (.inl rfl)
  | seVxNN x nn | sneVxNN x nn | seVxVy x y | sneVxVy x y | skp x | sknp x =>
    cases h
    rw [skipIf_pc]
    split
    · exact .inr (.inr (.inl rfl))
    · exact .inr (.inl rfl)
  | ldVxK x =>
    cases h
    exact .inl rfl
  | _ =>
    cases h
    exact .inr (.inl rfl)

/-- The stack and SP are kept, or one entry is taken off and stays where it was, or PC + 2 is put at SP (R27). -/
theorem exec_stack_cases {d : Instr} {s t : State} (h : exec d s = .next t) :
    (t.stack = s.stack ∧ t.sp = s.sp) ∨
    (d = .ret ∧ t.stack = s.stack ∧ s.sp.val = t.sp.val + 1) ∨
    ∃ nnn, d = .call nnn ∧ ∃ hsp : s.sp.val < 16,
      t.stack = s.stack.set s.sp.val (s.pc + 2) hsp ∧ t.sp.val = s.sp.val + 1 := by
  rcases exec_cases h with ⟨e, -, rfl⟩ | frame
  · exact .inl ⟨rfl, rfl⟩
  cases d with
  | ret =>
    rcases execRet_next h with ⟨-, rfl⟩ | ⟨j, hj, rfl⟩
    · exact .inl ⟨rfl, rfl⟩
    · exact .inr (.inl ⟨rfl, rfl, hj⟩)
  | call nnn =>
    rcases execCall_next h with ⟨-, rfl⟩ | ⟨hsp, rfl⟩
    · exact .inl ⟨rfl, rfl⟩
    · exact .inr (.inr ⟨nnn, rfl, hsp, rfl, rfl⟩)
  | _ => exact .inl (frame.stack rfl)

/-- An instruction halts with its error, or suspends, or keeps the run state and the latch (R33, R34). -/
theorem exec_run_cases {d : Instr} {s t : State} (h : exec d s = .next t) :
    (∃ e, raises d s e ∧ t = { s with runState := .halted e }) ∨
    (∃ x, d = .ldVxK x ∧ t = { s with latch := none, runState := .waitingForKey }) ∨
    (t.runState = s.runState ∧ t.latch = s.latch) := by
  refine (exec_cases h).imp_right fun frame => ?_
  cases d with
  | ldVxK x =>
    cases h
    exact .inl ⟨x, rfl, rfl⟩
  | _ => exact .inr ⟨frame.run rfl, frame.latch rfl⟩

/-- The error an instruction raises fits the state it is raised in (R202). -/
theorem recordFits_of_raises {d : Instr} {s : State} {e : HaltReason} (h : raises d s e) : recordFits s e := by
  cases d with
  | ret | call nnn =>
    obtain ⟨hsp, rfl⟩ := h
    exact hsp
  | drw x y n | ldBVx x | ldMemVx x | ldVxMem x =>
    obtain ⟨-, rfl⟩ := h
    have := s.i.isLt
    simp only [recordFits, outOfBoundsAtI, BitVec.toNat_ofNat]
    omega
  | _ => exact h.elim

/-! ## The invariant -/

section
variable {s t : State}

/-- The invariant looks at the memory, the PC, the stack, SP and the run state, and in `Running` at the latch. -/
theorem StateInv.congr (hs : StateInv s) (hmem : t.mem = s.mem) (hpc : t.pc = s.pc) (hstack : t.stack = s.stack)
    (hsp : t.sp = s.sp) (hrun : t.runState = s.runState) (hlatch : s.runState = .running → t.latch = s.latch) :
    StateInv t where
  memory := hmem ▸ hs.memory
  latch h := (hlatch (hrun ▸ h)).trans (hs.latch (hrun ▸ h))
  waiting h := by
    rw [fetch_congr hpc hmem]
    exact hs.waiting (hrun ▸ h)
  pc := hpc ▸ hs.pc
  stack := by
    rw [hstack, hsp]
    exact hs.stack
  record r h := by
    have := hs.record r (hrun ▸ h)
    cases r <;> simpa only [recordFits, hpc, hsp] using this

/-- Entering `Halted` with a record that fits keeps the invariant (R203). -/
theorem StateInv.halt (hs : StateInv s) {e : HaltReason} (he : recordFits s e) :
    StateInv { s with runState := .halted e } where
  memory := hs.memory
  latch := nofun
  waiting := nofun
  pc := hs.pc
  stack := hs.stack
  record r h := by
    cases h
    cases e <;> exact he

/-- The state `init` leaves meets the invariant, whatever events are still to come (R37, R38). -/
theorem stateInv_reinit (s : State) : StateInv (reinit s) where
  memory := memoryWf_reset
  latch _ := rfl
  waiting := nofun
  pc := (by decide : (0x200#16).toNat ≤ 0x10FE)
  stack _ h := absurd h (Nat.not_lt_zero _)
  record := nofun

/-- PC + 2 and PC + 4 do not wrap for a PC that can be fetched from (R25). -/
theorem fetched_pc_add {op : Word} (hf : fetch s = .ok op) {k : Word} (hk : k.toNat ≤ 4) :
    (s.pc + k).toNat = s.pc.toNat + k.toNat := by
  have := fetch_ok_pc hf
  rw [BitVec.toNat_add]
  omega

/-- The stores write inside the memory, so the canonical form is kept (R65). -/
theorem StateInv.exec_memory {d : Instr} (hs : StateInv s) (h : exec d s = .next t) : memoryWf t.mem = true := by
  rcases exec_mem_cases h with hmem | ⟨bytes, hmem, hlen⟩
  · rw [hmem]
    exact hs.memory
  · rw [hmem]
    exact memoryWf_writeBytes bytes s.mem _ hs.memory hlen

theorem StateInv.exec_pc {op : Word} {d : Instr} (hs : StateInv s) (hf : fetch s = .ok op)
    (h : exec d s = .next t) : t.pc.toNat ≤ 0x10FE := by
  have := fetch_ok_pc hf
  have slot : (s.pc + 2).toNat = s.pc.toNat + 2 := fetched_pc_add hf (by decide)
  have skip : (s.pc + 4).toNat = s.pc.toNat + 4 := fetched_pc_add hf (by decide)
  rcases exec_pc_cases h with hpc | hpc | hpc | hpc | ⟨j, hj, hpc⟩
  · rw [hpc]
    exact hs.pc
  · rw [hpc]
    omega
  · rw [hpc]
    omega
  · exact hpc
  · rw [hpc]
    exact (hs.stack j hj).trans (by decide)

/-- The address a CALL pushes is that of the slot after a fetched word, at most 0x1000 (R121). -/
theorem StateInv.exec_stack {op : Word} {d : Instr} (hs : StateInv s) (hf : fetch s = .ok op)
    (h : exec d s = .next t) (j : Fin 16) (hj : j.val < t.sp.val) : t.stack[j].toNat ≤ 0x1000 := by
  rcases exec_stack_cases h with ⟨hst, hsp⟩ | ⟨-, hst, hsp⟩ | ⟨-, -, hlt, hst, hsp⟩
  · rw [hst]
    exact hs.stack j (hsp ▸ hj)
  · rw [hst]
    exact hs.stack j (by omega)
  · simp only [hst, Fin.getElem_fin, Vector.getElem_set]
    split
    · have := fetch_ok_pc hf
      have slot : (s.pc + 2).toNat = s.pc.toNat + 2 := fetched_pc_add hf (by decide)
      omega
    · exact hs.stack j (by omega)

/-- A decoded instruction keeps the invariant (R25, R38, R202). -/
theorem StateInv.of_exec {op : Word} {d : Instr} (hs : StateInv s) (hrun : s.runState = .running)
    (hf : fetch s = .ok op) (hd : decode op = some d) (h : exec d s = .next t) : StateInv t := by
  rcases exec_run_cases h with ⟨e, he, rfl⟩ | ⟨x, rfl, rfl⟩ | ⟨hrun', hlatch⟩
  · exact hs.halt (recordFits_of_raises he)
  · exact { hs with latch := nofun, waiting := fun _ => ⟨op, x, hf, hd⟩, record := nofun }
  · have htrun : t.runState = .running := hrun'.trans hrun
    exact {
      memory := hs.exec_memory h
      latch := fun _ => hlatch.trans (hs.latch hrun)
      waiting := fun hw => nomatch htrun.symm.trans hw
      pc := hs.exec_pc hf h
      stack := hs.exec_stack hf h
      record := fun _ hr => nomatch htrun.symm.trans hr }

/-- The fetch, decode and execute of `Running` keeps the invariant (R210). -/
theorem StateInv.of_runCycle (hs : StateInv s) (hrun : s.runState = .running) (h : runCycle s = .next t) :
    StateInv t := by
  rcases runCycle_cases s with ⟨e, hf, he⟩ | ⟨op, -, hd, he⟩ | ⟨op, d, hf, hd, he⟩
  · obtain ⟨a, rfl, ha⟩ := fetch_error_address hf
    cases he.symm.trans h
    exact hs.halt ha
  · cases he.symm.trans h
    exact hs.halt ⟨hd, rfl⟩
  · exact hs.of_exec hrun hf hd (he.symm.trans h)

/-- The waiting step keeps the invariant: the instruction it retires was fetched inside the memory (R211). -/
theorem StateInv.of_retireKeyWait (hs : StateInv s) (hrun : s.runState = .waitingForKey) :
    StateInv (retireKeyWait s) := by
  cases hl : s.latch with
  | none =>
    rw [retireKeyWait_none hl]
    exact hs
  | some k =>
    obtain ⟨op, x, hf, -⟩ := hs.waiting hrun
    have := fetch_ok_pc hf
    have slot : (s.pc + 2).toNat = s.pc.toNat + 2 := fetched_pc_add hf (by decide)
    rw [retireKeyWait_some hl]
    refine { memory := hs.memory, latch := fun _ => rfl, waiting := nofun, pc := ?_, stack := hs.stack,
             record := nofun }
    rw [advance_pc, setReg_pc]
    omega

theorem StateInv.of_stepEvent (hs : StateInv s) (h : stepEvent s = .next t) : StateInv t := by
  cases hrun : s.runState with
  | running => exact hs.of_runCycle hrun ((stepEvent_running hrun).symm.trans h)
  | waitingForKey =>
    cases (stepEvent_waiting hrun).symm.trans h
    exact hs.of_retireKeyWait hrun
  | halted r =>
    cases (stepEvent_halted hrun).symm.trans h
    exact hs

/-! ## Events -/

/-- A `load_program` with a next state found the state `init` leaves, and has copied the image or halted with its
size (R254 to R256). -/
theorem loadProgram_next {bytes : List Byte} (h : loadProgram bytes s = .next t) :
    s = reinit s ∧
      ((bytes.length ≤ 3584 ∧ t = { s with mem := writeBytes s.mem 0x200 bytes }) ∨
        (3584 < bytes.length ∧ t = { s with runState := .halted (.programTooLarge bytes.length) })) := by
  by_cases hb : s = reinit s
  · refine ⟨hb, ?_⟩
    rw [loadProgram_boot bytes hb] at h
    split at h
    · next hl =>
      cases h
      exact .inl ⟨hl, rfl⟩
    · next hl =>
      cases h
      exact .inr ⟨Nat.lt_of_not_le hl, rfl⟩
  · rw [loadProgram_late bytes hb] at h
    cases h

theorem StateInv.of_loadProgram {bytes : List Byte} (hs : StateInv s) (h : loadProgram bytes s = .next t) :
    StateInv t := by
  obtain ⟨hb, ⟨hl, rfl⟩ | ⟨hl, rfl⟩⟩ := loadProgram_next h
  · have hrun : s.runState = .running := congrArg State.runState hb
    exact { hs with
      memory := memoryWf_writeBytes bytes s.mem _ hs.memory (by simp only [lastAddress]; omega)
      waiting := fun hw => nomatch hrun.symm.trans hw
      record := fun _ hr => nomatch hrun.symm.trans hr }
  · exact hs.halt hl

/-- A key event writes the latch only while the core waits (R221). -/
theorem StateInv.of_setPressed (hs : StateInv s) (k : KeyNum) (down : Bool) : StateInv (setPressed k down s) := by
  rw [setPressed_eq]
  refine hs.congr rfl rfl rfl rfl rfl fun hrun => ?_
  simp [qualifies, hrun]

theorem StateInv.of_handleEvent {e : Event} (hs : StateInv s) (h : handleEvent e s = .next t) : StateInv t := by
  cases e with
  | init =>
    cases h
    exact stateInv_reinit s
  | loadProgram bytes => exact hs.of_loadProgram h
  | step => exact hs.of_stepEvent h
  | tick =>
    cases h
    exact hs.congr rfl rfl rfl rfl rfl fun _ => rfl
  | setPressed k down =>
    cases h
    exact hs.of_setPressed k down

end

end Sys2Proof.Machine
end

section
/-! The state (spec/10_state.md): what `init` leaves, what the status registers show, which instructions and events
write which piece of state, and the invariant of every reachable state. -/
namespace Sys2Proof.Proofs.StateRules
open Sys2Proof Sys2Proof.Machine

/-! ## The invariant -/

/-- Settles O25: the step is the `step` event or serves the oldest event, on a state that differs in the queue only,
and every event keeps the invariant (`StateInv.of_stepEvent`, `StateInv.of_handleEvent`). -/
theorem everyStepKeepsTheInvariant : Obligations.EveryStepKeepsTheInvariant := by
  intro s t hs h
  cases hin : s.inputs with
  | nil => exact hs.of_stepEvent ((step_default hin).symm.trans h)
  | cons e rest =>
    have hs' : StateInv { s with inputs := rest } := hs.congr rfl rfl rfl rfl rfl fun _ => rfl
    exact hs'.of_handleEvent ((step_input hin).symm.trans h)

/-- Settles O24: the reset state is what `init` leaves in it. -/
theorem resetMeetsTheInvariant : Obligations.ResetMeetsTheInvariant := stateInv_reinit State.reset

/-! ## Events -/

/-- Settles O18: each of the three events writes other fields only (`loadProgram_next`, `setPressed_eq`). -/
theorem onlyStepAndInitWriteRegistersAndPc : Obligations.OnlyStepAndInitWriteRegistersAndPc := by
  intro s t e hstep hinit h
  cases e with
  | init => exact absurd rfl hinit
  | step => exact absurd rfl hstep
  | loadProgram bytes =>
    obtain ⟨-, ⟨-, rfl⟩ | ⟨-, rfl⟩⟩ := loadProgram_next h
    · exact ⟨rfl, rfl, rfl, rfl, rfl, rfl⟩
    · exact ⟨rfl, rfl, rfl, rfl, rfl, rfl⟩
  | tick =>
    cases h
    exact ⟨rfl, rfl, rfl, rfl, rfl, rfl⟩
  | setPressed k down =>
    cases h
    rw [setPressed_eq]
    exact ⟨rfl, rfl, rfl, rfl, rfl, rfl⟩

/-! ## Instructions -/

/-- The row-major index holds the row in its high five bits and the column in its low six (R31). -/
theorem pixelIndex_eq_append (p : Pixel) : BitVec.ofNat 11 (p.1.toNat * 64 + p.2.toNat) = p.1 ++ p.2 := by
  have hrow := p.1.isLt
  have hcol : p.2.toNat < 2 ^ 6 := p.2.isLt
  apply BitVec.eq_of_toNat_eq
  rw [BitVec.toNat_append, ← Nat.shiftLeft_add_eq_or_of_lt hcol, Nat.shiftLeft_eq, BitVec.toNat_ofNat]
  omega

/-- Settles O26: the index splits into row and column, and only the footprints of CLS and DRW have the display. -/
theorem onlyClsAndDrwChangeTheDisplay : Obligations.OnlyClsAndDrwChangeTheDisplay := by
  refine ⟨fun s p => by rw [pixelIndex_eq_append, pixelAtIndex_append], fun d s t h => ?_⟩
  rcases exec_cases h with ⟨e, -, rfl⟩ | frame
  · exact .inl rfl
  cases d with
  | cls => exact .inr (.inl rfl)
  | drw x y n => exact .inr (.inr ⟨x, y, n, rfl⟩)
  | _ => exact .inl (frame.screen rfl)

/-- Settles O27: only three footprints have the index register. -/
theorem onlyThreeInstructionsWriteI : Obligations.OnlyThreeInstructionsWriteI := by
  intro d s t h
  rcases exec_cases h with ⟨e, -, rfl⟩ | frame
  · exact .inl rfl
  cases d with
  | ldI nnn => exact .inr (.inl ⟨nnn, rfl⟩)
  | addIVx x => exact .inr (.inr (.inl ⟨x, rfl⟩))
  | ldFVx x => exact .inr (.inr (.inr ⟨x, rfl⟩))
  | _ => exact .inl (frame.index rfl)

/-- Settles O28, from the three things an instruction can do to the stack. -/
theorem onlyCallAndRetTouchTheStack : Obligations.OnlyCallAndRetTouchTheStack := by
  intro d s t h
  rcases exec_stack_cases h with kept | ⟨hret, -⟩ | ⟨nnn, hcall, -⟩
  · exact .inl kept
  · exact .inr (.inl hret)
  · exact .inr (.inr ⟨nnn, hcall⟩)

/-- A byte that an instruction changes is in its footprint and inside the memory (R29, R65). -/
theorem changed_byte_mem_footprint {d : Instr} {s t : State} {a : Nat} (h : exec d s = .next t)
    (ha : readByte t.mem a ≠ readByte s.mem a) : a ∈ (execFootprint d s).memory ∧ a ≤ 0xFFF := by
  constructor
  · rcases exec_cases h with ⟨e, -, rfl⟩ | frame
    · exact absurd rfl ha
    · by_contra hout
      exact ha (frame.memory a hout)
  · rcases exec_mem_cases h with hmem | ⟨bytes, hmem, hlen⟩
    · exact absurd (by rw [hmem]) ha
    · by_contra hout
      simp only [lastAddress] at hlen
      exact ha (by rw [hmem, readByte_writeBytes_outside _ _ _ _ (.inr (by omega))])

/-- Settles O29: only the footprints of the two stores have memory, the run at I. -/
theorem onlyTheStoresWriteMemory : Obligations.OnlyTheStoresWriteMemory := by
  intro d s t a h ha
  obtain ⟨hin, hle⟩ := changed_byte_mem_footprint h ha
  cases d with
  | ldBVx x =>
    obtain ⟨hlo, hhi⟩ := (mem_addressRun _ _ _).mp hin
    exact .inl ⟨x, rfl, hlo, hhi, hle⟩
  | ldMemVx x =>
    obtain ⟨hlo, hhi⟩ := (mem_addressRun _ _ _).mp hin
    exact .inr ⟨x, rfl, hlo, Nat.le_of_lt_succ hhi, hle⟩
  | _ => exact absurd hin List.not_mem_nil

/-- Settles O30: no footprint has the keys, and each timer is in the footprint of one instruction. -/
theorem instructionsLeaveKeysAndTimers : Obligations.InstructionsLeaveKeysAndTimers := by
  intro d s t h
  rcases exec_cases h with ⟨e, -, rfl⟩ | frame
  · exact ⟨fun _ => rfl, .inl rfl, .inl rfl⟩
  refine ⟨key_congr frame.keys, ?_⟩
  cases d with
  | ldDtVx x => exact ⟨.inr ⟨x, rfl⟩, .inl (frame.soundTimer rfl)⟩
  | ldStVx x => exact ⟨.inl (frame.delayTimer rfl), .inr ⟨x, rfl⟩⟩
  | _ => exact ⟨.inl (frame.delayTimer rfl), .inl (frame.soundTimer rfl)⟩

/-! ## VF -/

theorem flagByte_zero_or_one (b : Bool) : flagByte b = 0 ∨ flagByte b = 1 := by
  cases b with
  | false => exact .inl rfl
  | true => exact .inr rfl

theorem vf_after_flag (s : State) (x : RegNum) (r : Byte) (f : Bool) :
    reg (advance (setRegThenFlag s x r f)) VF = flagByte f := by
  rw [reg_advance, reg_setRegThenFlag, if_pos rfl]

/-- ADD, SUB, SHR, SUBN and SHL write VF last, as a flag (R21). -/
theorem aluFlag_next {d : Instr} {s t : State} (h : exec d s = .next t)
    (hd : ∃ x y, d = .addVxVy x y ∨ d = .subVxVy x y ∨ d = .shrVx x y ∨ d = .subnVxVy x y ∨ d = .shlVx x y) :
    ∃ b, reg t VF = flagByte b := by
  obtain ⟨x, y, rfl | rfl | rfl | rfl | rfl⟩ := hd
  all_goals
    cases h
    exact ⟨_, vf_after_flag _ _ _ _⟩

/-- DRW that draws writes VF last, as a flag (R21, R181). -/
theorem drwFlag_next {x y : RegNum} {n : BitVec 4} {s t : State} (h : exec (.drw x y n) s = .next t)
    (hr : ¬ runsOut s n.toNat) : ∃ b, reg t VF = flagByte b := by
  rcases withRange_next h with ⟨hout, -⟩ | ⟨-, h⟩
  · exact absurd hout hr
  · cases h
    exact ⟨_, by rw [reg_advance, drawSprite, reg_setReg, if_pos rfl]⟩

/-- A general register that an instruction changes is in its footprint (R20). -/
theorem changed_reg_mem_footprint {d : Instr} {s t : State} {r : RegNum} (h : exec d s = .next t)
    (hr : reg t r ≠ reg s r) : r ∈ (execFootprint d s).regs := by
  rcases exec_cases h with ⟨e, -, rfl⟩ | frame
  · exact absurd rfl hr
  · by_contra hout
    exact hr (frame.regs r hout)

/-- Of the runs V0 to VX only the one with X = 15 reaches VF (R165). -/
theorem eq_VF_of_mem_run {x : RegNum} (h : VF ∈ (List.range (x.toNat + 1)).map (BitVec.ofNat 4)) : x = VF := by
  obtain ⟨k, hk, hkv⟩ := List.mem_map.mp h
  have hk := List.mem_range.mp hk
  have := x.isLt
  have hkv : k % 2 ^ 4 = 15 := congrArg BitVec.toNat hkv
  exact BitVec.eq_of_toNat_eq (show x.toNat = 15 by omega)

/-- Settles O31: the six flag instructions write VF last (`aluFlag_next`, `drwFlag_next`), and any other whose
footprint has VF names it as its destination. -/
theorem vfIsWrittenAsAFlagBySixInstructions : Obligations.VfIsWrittenAsAFlagBySixInstructions := by
  intro d s t h hnr
  constructor
  · intro hd
    have flag : ∃ b, reg t VF = flagByte b := by
      rcases hd with hd | ⟨x, y, n, rfl⟩
      · exact aluFlag_next h hd
      · exact drwFlag_next h fun hr => hnr _ ⟨hr, rfl⟩
    obtain ⟨b, hb⟩ := flag
    rw [hb]
    exact flagByte_zero_or_one b
  · intro hvf
    have hmem := changed_reg_mem_footprint h hvf
    cases d with
    | addVxVy x y => exact .inl ⟨x, y, .inl rfl⟩
    | subVxVy x y => exact .inl ⟨x, y, .inr (.inl rfl)⟩
    | shrVx x y => exact .inl ⟨x, y, .inr (.inr (.inl rfl))⟩
    | subnVxVy x y => exact .inl ⟨x, y, .inr (.inr (.inr (.inl rfl)))⟩
    | shlVx x y => exact .inl ⟨x, y, .inr (.inr (.inr (.inr rfl)))⟩
    | drw x y n => exact .inr (.inl ⟨x, y, n, rfl⟩)
    | ldVxNN x nn | addVxNN x nn | rnd x nn =>
      obtain rfl := List.mem_singleton.mp hmem
      exact .inr (.inr (.inl ⟨nn, by simp⟩))
    | ldVxVy x y | orVxVy x y | andVxVy x y | xorVxVy x y =>
      obtain rfl := List.mem_singleton.mp hmem
      exact .inr (.inr (.inr (.inl ⟨y, by simp⟩)))
    | ldVxDt x =>
      obtain rfl := List.mem_singleton.mp hmem
      exact .inr (.inr (.inr (.inr (.inl rfl))))
    | ldVxMem x =>
      obtain rfl := eq_VF_of_mem_run hmem
      exact .inr (.inr (.inr (.inr (.inr rfl))))
    | _ => exact absurd hmem List.not_mem_nil

/-! ## Reset and status -/

/-- `init` leaves FONT_DATA at FONT_BASE (R30, R37). -/
theorem initByte_font (k : Fin 80) : initByte (Config.fontBase.val + k.val) = Config.fontData k := by
  have hbase := Config.fontBase.isLt
  have hlow : ¬ 0x200 ≤ Config.fontBase.val + k.val := by omega
  have hin : Config.fontBase.val ≤ Config.fontBase.val + k.val ∧
      Config.fontBase.val + k.val < Config.fontBase.val + 80 := by omega
  simp only [initByte, if_neg hlow, dif_pos hin, Nat.add_sub_cancel_left]

/-- `init` leaves 0 outside the font (R37). -/
theorem initByte_outside_font {a : Nat} (h : a < Config.fontBase.val ∨ Config.fontBase.val + 79 < a) :
    initByte a = 0 := by
  have hout : ¬ (Config.fontBase.val ≤ a ∧ a < Config.fontBase.val + 80) := by omega
  simp only [initByte, dif_neg hout, ite_self]

/-- Settles O15: the vectors are filled with one value, and memory reads as `init` leaves it (`initByte_font`,
`initByte_outside_font`). -/
theorem resetStateHasTheResetValues : Obligations.ResetStateHasTheResetValues where
  regs r := Vector.getElem_replicate r.isLt
  index := rfl
  pc := rfl
  sp := rfl
  stack j := Vector.getElem_replicate j.isLt
  delayTimer := rfl
  soundTimer := rfl
  font k := initByte_font k
  memory _ _ hout := initByte_outside_font hout
  screen p := pixel_clearScreen p
  keys k := Vector.getElem_replicate k.isLt
  latch := rfl
  run := rfl
  error := ⟨rfl, rfl, rfl, rfl, rfl⟩

/-- Outside `Halted` every error register reads 0 (R36; log 16). -/
theorem errRegisters_not_halted {s : State} (h : ¬ isHalted s) :
    errCode s = 0 ∧ errOpcode s = 0 ∧ errPc s = 0 ∧ errAddress s = 0 ∧ errSize s = 0 := by
  cases hrun : s.runState with
  | running => simp [errCode, errOpcode, errPc, errAddress, errSize, hrun]
  | waitingForKey => simp [errCode, errOpcode, errPc, errAddress, errSize, hrun]
  | halted r => exact absurd ⟨r, hrun⟩ h

/-- Settles O23: the code of the run state by the lemmas about it, the registers by the recorded reason. -/
theorem statusRegistersShowTheErrorRecord : Obligations.StatusRegistersShowTheErrorRecord := by
  intro s
  refine ⟨runStateCode_running, runStateCode_waiting, fun ⟨_, h⟩ => runStateCode_halted h, errRegisters_not_halted,
    fun op pc h => ?_, fun a h => ?_, fun h => ?_, fun h => ?_, fun n h => ?_⟩ <;>
  simp [errCode, errOpcode, errPc, errAddress, errSize, h, reasonCode]

end Sys2Proof.Proofs.StateRules
end

section
/-! The fetch and the store of a run of registers, said once for the accesses inside and outside the memory
(spec/20_memory.md R65, R66; spec/42_index_memory.md R164). -/
namespace Sys2Proof.Machine

/-- The fetch of a PC whose word leaves the memory is the error with the lowest address out of range (R65, R66). -/
theorem fetch_outside (s : State) (h : 0xFFE < s.pc.toNat) :
    fetch s = .error (.memoryOutOfBounds (BitVec.ofNat 16 (max s.pc.toNat 0x1000))) := by
  simp [fetch, rangeError_eq_some s.pc 2 (by omega)]

/-- FX55 with its run inside the memory stores V0 to VX at I and goes on to the next slot (R164). -/
theorem exec_ldMemVx_inside {x : RegNum} {s : State} (h : s.i.toNat + x.toNat ≤ 0xFFF) :
    exec (.ldMemVx x) s = .next (advance (storeAtI s (regsUpTo s x))) :=
  withRange_inside s _ (.inr h)

/-- The byte at I + k after the store of V0 to VX is Vk (R164). -/
theorem readByte_storeAtI_regsUpTo (s : State) {x : RegNum} {k : Nat} (h : k ≤ x.toNat) :
    readByte (storeAtI s (regsUpTo s x)).mem (s.i.toNat + k) = reg s (BitVec.ofNat 4 k) := by
  have hk : k < (regsUpTo s x).length := by rw [regsUpTo_length]; omega
  rw [storeAtI_mem, readByte_writeBytes_inside _ _ _ _ hk, regsUpTo_getElem]

end Sys2Proof.Machine
end

section
/-! The memory (spec/20_memory.md): the instruction fetch, and a store that the next fetch sees. -/
namespace Sys2Proof.Proofs.MemoryRules
open Sys2Proof Sys2Proof.Machine

/-- Settles O53: FX55 leaves PC at I, where the store has put V0 and V1 (`readByte_storeAtI_regsUpTo`). -/
theorem nextFetchSeesTheStore : Obligations.NextFetchSeesTheStore := by
  intro x s hx hi hin
  refine ⟨_, exec_ldMemVx_inside hin, ?_⟩
  have hpc : (advance (storeAtI s (regsUpTo s x))).pc.toNat = s.i.toNat := by
    rw [advance_pc, storeAtI_pc, BitVec.toNat_add]
    change (s.pc.toNat + 2) % 2 ^ 16 = s.i.toNat
    omega
  have first := readByte_storeAtI_regsUpTo s (Nat.zero_le x.toNat)
  have second := readByte_storeAtI_regsUpTo s hx
  rw [fetch_inside _ (by omega), hpc, advance_mem, second]
  exact congrArg (fun b => Except.ok (b ++ reg s 1)) first

/-- Settles O6: the word inside the memory (`fetch_inside`), and the greater of PC and 0x1000 as the lowest address
outside it (`fetch_outside`). -/
theorem fetchReadsTheBigEndianWordAtPc : Obligations.FetchReadsTheBigEndianWordAtPc := by
  intro s
  refine ⟨fun hin => ?_, fun hout => ?_, fun hlast => ?_⟩
  · exact ⟨_, fetch_inside s (by omega), BitVec.extractLsb'_append_eq_left, BitVec.extractLsb'_append_eq_right⟩
  · rw [fetch_outside s (by omega), Nat.max_eq_left hout, BitVec.ofNat_toNat, BitVec.setWidth_eq]
  · rw [fetch_outside s (by rw [hlast]; decide), hlast]
    rfl

end Sys2Proof.Proofs.MemoryRules
end

section
/-! The fields of a word and the rows of the table: a word with the fixed bits of a format is put together from them
and its own fields, and a row met fixes those bits (spec/30_encoding.md R93, R97). -/
namespace Sys2Proof

/-! ## Words from their fixed bits -/

section
variable {w : Word} {a : BitVec 4} (ha : (opMajor w).toNat = a.toNat)
include ha

/-- Format A with the high nibble `a`. -/
theorem formatA_eq_word : a ++ opNNN w = w := by
  rw [← BitVec.eq_of_toNat_eq ha, word_formatA]

/-- Format I with the high nibble `a`. -/
theorem formatI_eq_word : a ++ opX w ++ opNN w = w := by
  rw [← BitVec.eq_of_toNat_eq ha, word_formatI]

/-- Format D with the high nibble `a`. -/
theorem formatD_eq_word : a ++ opX w ++ opY w ++ opN w = w := by
  rw [← BitVec.eq_of_toNat_eq ha, word_formatR]

/-- Format U with the high nibble `a` and the low byte `f`. -/
theorem formatU_eq_word {f : Byte} (hf : opNN w = f) : a ++ opX w ++ f = w := by
  rw [← hf, formatI_eq_word ha]

/-- Format R with the high nibble `a` and the low nibble `f`. -/
theorem formatR_eq_word {f : BitVec 4} (hf : (opN w).toNat = f.toNat) : a ++ opX w ++ opY w ++ f = w := by
  rw [← BitVec.eq_of_toNat_eq hf, formatD_eq_word ha]

end

/-! ## Rows met -/

/-- A row met fixes every field of the word that its mask covers (R97). -/
theorem extractLsb'_of_hitsRow {w : Word} {r : OpcodeRow} (h : hitsRow w r = true) {start len : Nat}
    (hmask : r.mask.extractLsb' start len = BitVec.allOnes len) :
    w.extractLsb' start len = r.value.extractLsb' start len := by
  rw [← beq_iff_eq.mp h, BitVec.extractLsb'_and, hmask, BitVec.and_allOnes]

/-- A row of four fixed high bits is met by words with those bits only. -/
theorem opMajor_of_hitsRow_formatA {w : Word} (a : BitVec 4)
    (h : hitsRow w ⟨a ++ 0#12, 0xF#4 ++ 0#12⟩ = true) : (opMajor w).toNat = a.toNat := by
  have hm : opMajor w = opMajor (a ++ 0#12) := extractLsb'_of_hitsRow h (opMajor_formatA 0xF 0)
  rw [hm, opMajor_formatA]

/-- A row of a fixed low byte too is met by words of its format U only. -/
theorem formatU_eq_word_of_hitsRow {w : Word} (a : BitVec 4) (f : Byte)
    (h : hitsRow w ⟨a ++ 0#4 ++ f, 0xF#4 ++ 0#4 ++ 0xFF#8⟩ = true) : a ++ opX w ++ f = w := by
  have hm : opMajor w = opMajor (a ++ 0#4 ++ f) := extractLsb'_of_hitsRow h (opMajor_formatI 0xF 0 0xFF)
  have hf : opNN w = opNN (a ++ 0#4 ++ f) := extractLsb'_of_hitsRow h (opNN_formatI 0xF 0 0xFF)
  exact formatU_eq_word (by rw [hm, opMajor_formatI]) (by rw [hf, opNN_formatI])

/-- A row of a fixed low nibble too is met by words of its format R only. -/
theorem formatR_eq_word_of_hitsRow {w : Word} (a f : BitVec 4)
    (h : hitsRow w ⟨a ++ 0#4 ++ 0#4 ++ f, 0xF#4 ++ 0#4 ++ 0#4 ++ 0xF#4⟩ = true) : a ++ opX w ++ opY w ++ f = w := by
  have hm : opMajor w = opMajor (a ++ 0#4 ++ 0#4 ++ f) := extractLsb'_of_hitsRow h (opMajor_formatR 0xF 0 0 0xF)
  have hf : opN w = opN (a ++ 0#4 ++ 0#4 ++ f) := extractLsb'_of_hitsRow h (opN_formatR 0xF 0 0 0xF)
  exact formatR_eq_word (by rw [hm, opMajor_formatR]) (by rw [hf, opN_formatR])

/-- A row of sixteen fixed bits is met by one word. -/
theorem value_eq_word_of_hitsRow {w value : Word} (h : hitsRow w ⟨value, 0xFFFF⟩ = true) : value = w :=
  (beq_iff_eq.mp h).symm.trans BitVec.and_allOnes

open Laws.EncodingRow in
/-- The word of an instruction meets the row of the instruction: `Laws.EncodingRow`, constructor by constructor. -/
theorem hitsRow_encode (d : Instr) : hitsRow (encode d) (opcodeRow d) = true :=
  (d.casesOn (motive := Statement) cls ret jp call seVxNN sneVxNN seVxVy ldVxNN addVxNN ldVxVy orVxVy andVxVy xorVxVy
    addVxVy subVxVy shrVx subnVxVy shlVx sneVxVy ldI jpV0 rnd drw skp sknp ldVxDt ldVxK ldDtVx ldStVx addIVx ldFVx ldBVx
    ldMemVx ldVxMem).2

/-- The row of every instruction is in the table. -/
theorem opcodeRow_mem_opcodeTable (d : Instr) : opcodeRow d ∈ opcodeTable := by
  cases d <;> rw [opcodeRow] <;> decide

theorem opcodeTable_nodup : opcodeTable.Nodup := by decide

/-- A word that meets a row of the table is the word of an instruction of that row: the one with the word's own
fields. -/
theorem encode_of_hitsRow {w : Word} : ∀ {d : Instr}, hitsRow w (opcodeRow d) = true →
    ∃ d', encode d' = w ∧ opcodeRow d' = opcodeRow d
  | .cls, h => ⟨.cls, value_eq_word_of_hitsRow h, rfl⟩
  | .ret, h => ⟨.ret, value_eq_word_of_hitsRow h, rfl⟩
  | .jp _, h => ⟨.jp (opNNN w), formatA_eq_word (opMajor_of_hitsRow_formatA 0x1 h), rfl⟩
  | .call _, h => ⟨.call (opNNN w), formatA_eq_word (opMajor_of_hitsRow_formatA 0x2 h), rfl⟩
  | .seVxNN _ _, h => ⟨.seVxNN (opX w) (opNN w), formatI_eq_word (opMajor_of_hitsRow_formatA 0x3 h), rfl⟩
  | .sneVxNN _ _, h => ⟨.sneVxNN (opX w) (opNN w), formatI_eq_word (opMajor_of_hitsRow_formatA 0x4 h), rfl⟩
  | .seVxVy _ _, h => ⟨.seVxVy (opX w) (opY w), formatR_eq_word_of_hitsRow 0x5 0x0 h, rfl⟩
  | .ldVxNN _ _, h => ⟨.ldVxNN (opX w) (opNN w), formatI_eq_word (opMajor_of_hitsRow_formatA 0x6 h), rfl⟩
  | .addVxNN _ _, h => ⟨.addVxNN (opX w) (opNN w), formatI_eq_word (opMajor_of_hitsRow_formatA 0x7 h), rfl⟩
  | .ldVxVy _ _, h => ⟨.ldVxVy (opX w) (opY w), formatR_eq_word_of_hitsRow 0x8 0x0 h, rfl⟩
  | .orVxVy _ _, h => ⟨.orVxVy (opX w) (opY w), formatR_eq_word_of_hitsRow 0x8 0x1 h, rfl⟩
  | .andVxVy _ _, h => ⟨.andVxVy (opX w) (opY w), formatR_eq_word_of_hitsRow 0x8 0x2 h, rfl⟩
  | .xorVxVy _ _, h => ⟨.xorVxVy (opX w) (opY w), formatR_eq_word_of_hitsRow 0x8 0x3 h, rfl⟩
  | .addVxVy _ _, h => ⟨.addVxVy (opX w) (opY w), formatR_eq_word_of_hitsRow 0x8 0x4 h, rfl⟩
  | .subVxVy _ _, h => ⟨.subVxVy (opX w) (opY w), formatR_eq_word_of_hitsRow 0x8 0x5 h, rfl⟩
  | .shrVx _ _, h => ⟨.shrVx (opX w) (opY w), formatR_eq_word_of_hitsRow 0x8 0x6 h, rfl⟩
  | .subnVxVy _ _, h => ⟨.subnVxVy (opX w) (opY w), formatR_eq_word_of_hitsRow 0x8 0x7 h, rfl⟩
  | .shlVx _ _, h => ⟨.shlVx (opX w) (opY w), formatR_eq_word_of_hitsRow 0x8 0xE h, rfl⟩
  | .sneVxVy _ _, h => ⟨.sneVxVy (opX w) (opY w), formatR_eq_word_of_hitsRow 0x9 0x0 h, rfl⟩
  | .ldI _, h => ⟨.ldI (opNNN w), formatA_eq_word (opMajor_of_hitsRow_formatA 0xA h), rfl⟩
  | .jpV0 _, h => ⟨.jpV0 (opNNN w), formatA_eq_word (opMajor_of_hitsRow_formatA 0xB h), rfl⟩
  | .rnd _ _, h => ⟨.rnd (opX w) (opNN w), formatI_eq_word (opMajor_of_hitsRow_formatA 0xC h), rfl⟩
  | .drw _ _ _, h => ⟨.drw (opX w) (opY w) (opN w), formatD_eq_word (opMajor_of_hitsRow_formatA 0xD h), rfl⟩
  | .skp _, h => ⟨.skp (opX w), formatU_eq_word_of_hitsRow 0xE 0x9E h, rfl⟩
  | .sknp _, h => ⟨.sknp (opX w), formatU_eq_word_of_hitsRow 0xE 0xA1 h, rfl⟩
  | .ldVxDt _, h => ⟨.ldVxDt (opX w), formatU_eq_word_of_hitsRow 0xF 0x07 h, rfl⟩
  | .ldVxK _, h => ⟨.ldVxK (opX w), formatU_eq_word_of_hitsRow 0xF 0x0A h, rfl⟩
  | .ldDtVx _, h => ⟨.ldDtVx (opX w), formatU_eq_word_of_hitsRow 0xF 0x15 h, rfl⟩
  | .ldStVx _, h => ⟨.ldStVx (opX w), formatU_eq_word_of_hitsRow 0xF 0x18 h, rfl⟩
  | .addIVx _, h => ⟨.addIVx (opX w), formatU_eq_word_of_hitsRow 0xF 0x1E h, rfl⟩
  | .ldFVx _, h => ⟨.ldFVx (opX w), formatU_eq_word_of_hitsRow 0xF 0x29 h, rfl⟩
  | .ldBVx _, h => ⟨.ldBVx (opX w), formatU_eq_word_of_hitsRow 0xF 0x33 h, rfl⟩
  | .ldMemVx _, h => ⟨.ldMemVx (opX w), formatU_eq_word_of_hitsRow 0xF 0x55 h, rfl⟩
  | .ldVxMem _, h => ⟨.ldVxMem (opX w), formatU_eq_word_of_hitsRow 0xF 0x65 h, rfl⟩

end Sys2Proof
end

section
/-! The encoding (spec/30_encoding.md): the decoder, the encoder and the mask and match table are one relation. -/
namespace Sys2Proof.Proofs.EncodingRules
open Sys2Proof Sys2Proof.Machine

/-! ## The decoder undoes the encoder -/

/-- Settles O2: the fields of the word of an instruction are the ones it was put together from (`opMajor_formatA` and
its companions), so the high nibble picks the family, and the selector of families 8, E and F the instruction. -/
theorem decodeOfEncodeIsTheInstruction : Obligations.DecodeOfEncodeIsTheInstruction := by
  intro d
  cases d with
  | cls | ret => rfl
  -- formats A, I, and R or D: the high nibble decides
  | jp | call | ldI | jpV0 => simp [encode, decode]
  | seVxNN | sneVxNN | ldVxNN | addVxNN | rnd => simp [encode, decode]
  | seVxVy | sneVxVy | drw => simp [encode, decode]
  -- the families with a selector
  | ldVxVy | orVxVy | andVxVy | xorVxVy | addVxVy | subVxVy | shrVx | subnVxVy | shlVx =>
    simp [encode, decode, decodeFamily8]
  | skp | sknp => simp [encode, decode, decodeFamilyE]
  | ldVxDt | ldVxK | ldDtVx | ldStVx | addIVx | ldFVx | ldBVx | ldMemVx | ldVxMem =>
    simp [encode, decode, decodeFamilyF]

/-! ## The encoder undoes the decoder -/

section
variable {w : Word} {d : Instr}

theorem encode_of_decodeFamily0 (h : decodeFamily0 w = some d) : encode d = w := by
  unfold decodeFamily0 at h
  split_ifs at h with hw hw <;> cases h <;> exact hw.symm

/-- Every instruction of family 8 is its selector in the low nibble. -/
theorem encode_of_decodeFamily8 (hm : (opMajor w).toNat = 0x8) (h : decodeFamily8 w = some d) : encode d = w := by
  unfold decodeFamily8 at h
  split at h <;> cases h <;> exact formatR_eq_word hm ‹_›

/-- Every instruction of family E is its selector in the low byte. -/
theorem encode_of_decodeFamilyE (hm : (opMajor w).toNat = 0xE) (h : decodeFamilyE w = some d) : encode d = w := by
  unfold decodeFamilyE at h
  split_ifs at h <;> cases h <;> exact formatU_eq_word hm ‹_›

/-- Every instruction of family F is its selector in the low byte. -/
theorem encode_of_decodeFamilyF (hm : (opMajor w).toNat = 0xF) (h : decodeFamilyF w = some d) : encode d = w := by
  unfold decodeFamilyF at h
  split_ifs at h <;> cases h <;> exact formatU_eq_word hm ‹_›

end

/-- Settles O3: in each branch of the decoder the high nibble and the selector are the fixed bits of the format, and
the word is put together from them and its own fields (`formatA_eq_word` and its companions). -/
theorem encodeOfDecodeIsTheWord : Obligations.EncodeOfDecodeIsTheWord := by
  intro w d h
  unfold decode at h
  split at h
  -- the families of R97, then formats A, I, D and R by the high nibble, then no other high nibble
  case h_1 => exact encode_of_decodeFamily0 h
  case h_9 hm => exact encode_of_decodeFamily8 hm h
  case h_15 hm => exact encode_of_decodeFamilyE hm h
  case h_16 hm => exact encode_of_decodeFamilyF hm h
  case h_2 hm | h_3 hm | h_11 hm | h_12 hm => cases h; exact formatA_eq_word hm
  case h_4 hm | h_5 hm | h_7 hm | h_8 hm | h_13 hm => cases h; exact formatI_eq_word hm
  case h_14 hm => cases h; exact formatD_eq_word hm
  case h_6 hm | h_10 hm =>
    split_ifs at h with hn
    cases h; exact formatR_eq_word hm (congrArg BitVec.toNat hn)
  case h_17 => cases h

/-! ## The mask and match table -/

/-- A word that meets a row of the table decodes to an instruction of that row. -/
theorem decode_of_hitsRow {w : Word} {r : OpcodeRow} (hr : r ∈ opcodeTable) (h : hitsRow w r = true) :
    ∃ d, decode w = some d ∧ opcodeRow d = r := by
  obtain ⟨d, -, rfl⟩ := List.mem_map.mp hr
  obtain ⟨d', rfl, hrow⟩ := encode_of_hitsRow h
  exact ⟨d', decodeOfEncodeIsTheInstruction d', hrow⟩

/-- Settles O4: a row met is a row of what the word decodes to (`decode_of_hitsRow`), and the row of the decoded
instruction is met, the word being the instruction's (O3 and `hitsRow_encode`). -/
theorem decodeIsTheMaskMatchTable : Obligations.DecodeIsTheMaskMatchTable := by
  intro w
  refine ⟨fun d hd => ?_, fun hnone => ?_⟩
  · have onlyRow : ∀ r ∈ opcodeTable, hitsRow w r = (r == opcodeRow d) := by
      intro r hr
      rw [Bool.eq_iff_iff, beq_iff_eq]
      constructor
      · intro h
        obtain ⟨d', hd', hrow⟩ := decode_of_hitsRow hr h
        rw [← hrow, Option.some.inj (hd'.symm.trans hd)]
      · rintro rfl
        rw [← encodeOfDecodeIsTheWord w d hd]
        exact hitsRow_encode d
    rw [List.filter_congr onlyRow, List.filter_beq,
      List.count_eq_one_of_mem opcodeTable_nodup (opcodeRow_mem_opcodeTable d), List.replicate_one]
  · refine List.filter_eq_nil_iff.mpr fun r hr h => ?_
    obtain ⟨d, hd, -⟩ := decode_of_hitsRow hr h
    exact Option.some_ne_none d (hd.symm.trans hnone)

/-! ## Family 0 -/

/-- The empty memory holds the word 0 at the start address (R37, R66). -/
theorem fetch_reset : fetch State.reset = .ok 0x0000 := fetch_inside State.reset (by decide)

/-- Settles O5: family 0 tests for its two words, and the first word fetched after reset is 0 (`fetch_reset`), which is
neither. -/
theorem familyZeroHoldsTwoInstructions : Obligations.FamilyZeroHoldsTwoInstructions := by
  refine ⟨fun w hm => ?_, ?_⟩
  · have hfamily : decode w = decodeFamily0 w := by simp [decode, hm]
    rw [hfamily, decodeFamily0]
    split_ifs with hcls hret
    · exact iff_of_true rfl (.inl hcls)
    · exact iff_of_true rfl (.inr hret)
    · exact iff_of_false Bool.false_ne_true (not_or.mpr ⟨hcls, hret⟩)
  · calc step State.reset
      _ = stepEvent State.reset := step_default rfl
      _ = runCycle State.reset := stepEvent_running rfl
      _ = raise (.unknownInstruction 0x0000 0x200) State.reset := runCycle_unknown fetch_reset rfl

/-! ## Words of the spec -/

/-- Settles O1, by running the decoder on each of the twelve words. -/
theorem specWordsDecode : Obligations.SpecWordsDecode := by
  unfold Obligations.SpecWordsDecode
  decide

end Sys2Proof.Proofs.EncodingRules
end

section
/-! The control-flow instructions said once per case: where the PC goes, what happens to the stack, and that the rest
of the state is kept (spec/40_control_flow.md R120 to R128). -/
namespace Sys2Proof.Machine

/-- Frames compose: what two instructions in a row may change. -/
theorem SameOutside.trans {f : Footprint} {s t u : State} (hst : SameOutside f s t) (htu : SameOutside f t u) :
    SameOutside f s u where
  regs r hr := (htu.regs r hr).trans (hst.regs r hr)
  index hf := (htu.index hf).trans (hst.index hf)
  stack hf := ⟨(htu.stack hf).1.trans (hst.stack hf).1, (htu.stack hf).2.trans (hst.stack hf).2⟩
  delayTimer hf := (htu.delayTimer hf).trans (hst.delayTimer hf)
  soundTimer hf := (htu.soundTimer hf).trans (hst.soundTimer hf)
  memory a ha := (htu.memory a ha).trans (hst.memory a ha)
  screen hf := (htu.screen hf).trans (hst.screen hf)
  keys := htu.keys.trans hst.keys
  latch hf := (htu.latch hf).trans (hst.latch hf)
  run hf := (htu.run hf).trans (hst.run hf)
  inputs := htu.inputs.trans hst.inputs
  draws hf := (htu.draws hf).trans (hst.draws hf)

/-- CALL on a full stack is the error and nothing else (R121, R203). -/
theorem exec_call_full (nnn : BitVec 12) {s : State} (h : s.sp.val = 16) :
    exec (.call nnn) s = .next { s with runState := .halted .stackOverflow } := by
  simp only [exec, execCall, push_full s _ h, raise]

/-- CALL with room puts the return address at SP and goes to NNN (R121). -/
theorem exec_call_room (nnn : BitVec 12) {s : State} (h : s.sp.val < 16) :
    exec (.call nnn) s =
      .next { s with pc := addressOperand nnn, stack := s.stack.set s.sp.val (s.pc + 2) h,
                     sp := ⟨s.sp.val + 1, by omega⟩ } := by
  simp only [exec, execCall, push_room s _ h, setPc]

/-- RET on an empty stack is the error and nothing else (R122, R203). -/
theorem exec_ret_empty {s : State} (h : s.sp.val = 0) :
    exec .ret s = .next { s with runState := .halted .stackUnderflow } := by
  simp only [exec, execRet, pop_empty s h, raise]

/-- RET with `j + 1` entries in use goes to entry `j`, which stays in its place (R122). -/
theorem exec_ret_used {s : State} {j : Fin 16} (h : s.sp.val = j.val + 1) :
    exec .ret s = .next { s with pc := s.stack[j], sp := ⟨j.val, by omega⟩ } := by
  have hj : s.sp.val - 1 = j.val := by omega
  simp only [exec, execRet, pop_used s (by omega), setPc, hj, Fin.getElem_fin]

/-- A skip instruction with condition `p` (R23, R128): PC + 4 when it holds and PC + 2 when not, the rest kept. -/
theorem exec_skip {d : Instr} {s : State} {c : Bool} {p : Prop} [Decidable p]
    (h : exec d s = .next (skipIf c s)) (hp : c = true ↔ p) :
    ∃ t, exec d s = .next t ∧ t.pc = (if p then s.pc + 4 else s.pc + 2) ∧ SameOutside {} s t :=
  ⟨_, h, (skipIf_pc c s).trans (if_congr hp rfl rfl), (SameOutside.refl {} s).then_skipIf c⟩

end Sys2Proof.Machine
end

section
/-! Control flow (spec/40_control_flow.md): jumps, calls and returns, and skips. -/
namespace Sys2Proof.Proofs.ControlFlowRules
open Sys2Proof Sys2Proof.Machine EncodingRules

/-! ## Calls and returns -/

/-- Settles O33, from the two cases of CALL (`exec_call_full`, `exec_call_room`); the one entry written is that at
SP. -/
theorem callPushesTheReturnAddressOrOverflows : Obligations.CallPushesTheReturnAddressOrOverflows := by
  intro nnn s
  refine ⟨decodeOfEncodeIsTheInstruction (.call nnn), exec_call_full nnn, fun hsp => ?_⟩
  refine ⟨_, exec_call_room nnn hsp, fun j => ?_, rfl, addressOperand_toNat nnn,
    { SameOutside.refl _ s with stack := nofun }⟩
  simp only [Fin.getElem_fin, Vector.getElem_set, eq_comm]

/-- Settles O34, from the two cases of RET (`exec_ret_empty`, `exec_ret_used`). -/
theorem retPopsTheReturnAddressOrUnderflows : Obligations.RetPopsTheReturnAddressOrUnderflows := by
  intro s
  refine ⟨decodeOfEncodeIsTheInstruction .ret, exec_ret_empty, fun j hsp => ?_⟩
  exact ⟨_, exec_ret_used hsp, rfl, rfl, rfl, { SameOutside.refl _ s with stack := nofun }⟩

/-- Settles O35: after the CALL (O33) the entry at the old SP is on top, and it is the one the RET (O34) takes. -/
theorem callThenRetComesBack : Obligations.CallThenRetComesBack := by
  intro nnn s hsp
  obtain ⟨-, -, call⟩ := callPushesTheReturnAddressOrOverflows nnn s
  obtain ⟨t, hcall, entries, hsp', -, frame⟩ := call hsp
  obtain ⟨-, -, ret⟩ := retPopsTheReturnAddressOrUnderflows t
  obtain ⟨u, hret, hpc, hspu, hstack, frame'⟩ := ret ⟨s.sp.val, hsp⟩ hsp'
  refine ⟨t, u, hcall, hret, ?_, Fin.ext hspu, fun j => ?_, frame.trans frame'⟩
  · rw [hpc, entries, if_pos rfl]
  · rw [hstack, entries]

/-! ## Jumps -/

/-- Settles O32: the address is NNN, zero extended (`addressOperand_toNat`). -/
theorem jpGoesToTheAddress : Obligations.JpGoesToTheAddress := by
  intro nnn s
  exact ⟨decodeOfEncodeIsTheInstruction (.jp nnn), _, rfl, addressOperand_toNat nnn,
    (SameOutside.refl {} s).then_setPc _⟩

/-- Settles O36: a 12-bit and an 8-bit number have a sum below 65536, so that it does not wrap. -/
theorem jpV0GoesToTheAddressPlusV0 : Obligations.JpV0GoesToTheAddressPlusV0 := by
  intro nnn s
  refine ⟨decodeOfEncodeIsTheInstruction (.jpV0 nnn), _, rfl, ?_, (SameOutside.refl {} s).then_setPc _⟩
  have := nnn.isLt
  have := (reg s 0).isLt
  rw [setPc_pc, BitVec.toNat_add, addressOperand_toNat, regAsWord_toNat]
  omega

/-! ## Skips -/

/-- Settles O37, by `exec_skip` with the two conditions. -/
theorem immediateSkipsCompareVxWithNn : Obligations.ImmediateSkipsCompareVxWithNn := by
  intro x nn s
  exact ⟨decodeOfEncodeIsTheInstruction (.seVxNN x nn), decodeOfEncodeIsTheInstruction (.sneVxNN x nn),
    exec_skip rfl beq_iff_eq, exec_skip rfl bne_iff_ne⟩

/-- Settles O38: the decoder tests the low nibble of the word, which is N (`opN_formatR`), and the skips are
`exec_skip` with the two conditions. -/
theorem registerSkipsCompareVxWithVy : Obligations.RegisterSkipsCompareVxWithVy := by
  intro x y s
  refine ⟨fun n => ?_, fun n => ?_, exec_skip rfl beq_iff_eq, exec_skip rfl bne_iff_ne⟩
  · simp [decode]
  · simp [decode]

end Sys2Proof.Proofs.ControlFlowRules
end

section
/-! The register and ALU instructions said once per kind: an instruction that writes Vx alone and one that writes Vx
and then a flag in VF (spec/41_register_alu.md R140 to R150), and what the written bytes are as numbers. -/
namespace Sys2Proof.Machine

/-- An instruction that writes `b` to Vx and ends in NEXT (R11, R20): what it leaves. -/
theorem exec_setReg {d : Instr} {s : State} {x : RegNum} {b : Byte}
    (h : exec d s = .next (advance (setReg s x b))) :
    ∃ t, exec d s = .next t ∧ reg t x = b ∧ t.pc = s.pc + 2 ∧ SameOutside { regs := [x] } s t := by
  refine ⟨_, h, ?_, rfl, ((SameOutside.refl _ s).then_setReg (List.mem_singleton_self x) b).then_advance⟩
  rw [reg_advance, reg_setReg, if_pos rfl]

theorem reg_after_flag {x : RegNum} (hx : x ≠ VF) (s : State) (r : Byte) (f : Bool) :
    reg (advance (setRegThenFlag s x r f)) x = r := by
  rw [reg_advance, reg_setRegThenFlag, if_neg hx.symm, if_pos rfl]

/-- An instruction that writes `r` to Vx, then the flag `f` to VF, and ends in NEXT (R11, R21): what it leaves. -/
theorem exec_setRegThenFlag {d : Instr} {s : State} {x : RegNum} {r : Byte} {f : Bool}
    (h : exec d s = .next (advance (setRegThenFlag s x r f))) :
    ∃ t, exec d s = .next t ∧ (x ≠ VF → reg t x = r) ∧ reg t VF = flagByte f ∧ t.pc = s.pc + 2 ∧
      SameOutside { regs := [x, VF] } s t := by
  have frame : SameOutside { regs := [x, VF] } s (setRegThenFlag s x r f) :=
    (SameOutside.refl _ s).then_setRegThenFlag (by simp) (by simp) r f
  exact ⟨_, h, fun hx => reg_after_flag hx s r f, Proofs.StateRules.vf_after_flag s x r f, rfl, frame.then_advance⟩

/-! ## The written bytes as numbers -/

theorem flagByte_decide (p : Prop) [Decidable p] : flagByte (decide p) = if p then 1 else 0 := by
  simp only [flagByte, decide_eq_true_eq]

theorem toNat_flagByte (b : Bool) : (flagByte b).toNat = b.toNat := by
  cases b with
  | false => rfl
  | true => rfl

/-- The byte difference is the integer difference modulo 256 (R147, R151). -/
theorem toNat_byte_sub (a b : Byte) : ((a - b).toNat : Int) = (a.toNat - b.toNat : Int) % 256 := by
  have hb := b.isLt
  rw [BitVec.toNat_sub]
  omega

/-- The bit that a right shift by one moves out is the remainder (R148). -/
theorem toNat_shiftedOutRight (a : Byte) : (shiftedOutRight a).toNat = a.toNat % 2 := by
  rw [shiftedOutRight, BitVec.getLsbD, Nat.toNat_testBit, Nat.pow_zero, Nat.div_one]

/-- The bit that a left shift by one moves out is the carry of the doubling (R150). -/
theorem toNat_shiftedOutLeft (a : Byte) : (shiftedOutLeft a).toNat = a.toNat / 128 := by
  have ha := a.isLt
  rw [shiftedOutLeft, BitVec.getLsbD, Nat.toNat_testBit]
  omega

theorem toNat_byte_shiftRight_one (a : Byte) : (a >>> 1).toNat = a.toNat / 2 := by
  rw [BitVec.toNat_ushiftRight, Nat.shiftRight_eq_div_pow, Nat.pow_one]

theorem toNat_byte_shiftLeft_one (a : Byte) : (a <<< 1).toNat = 2 * a.toNat % 256 := by
  rw [BitVec.toNat_shiftLeft, Nat.shiftLeft_eq, Nat.pow_one, Nat.mul_comm]

end Sys2Proof.Machine
end

section
/-! Registers and ALU (spec/41_register_alu.md): loads, sums, differences, logic, shifts and the random byte. -/
namespace Sys2Proof.Proofs.RegisterAluRules
open Sys2Proof Sys2Proof.Machine EncodingRules

/-! ## Instructions that write Vx alone -/

/-- Settles O40, by `exec_setReg`. -/
theorem ldVxNnLoadsTheImmediate : Obligations.LdVxNnLoadsTheImmediate := by
  intro x nn s
  exact ⟨decodeOfEncodeIsTheInstruction (.ldVxNN x nn), exec_setReg rfl⟩

/-- Settles O41: the byte sum is the sum modulo 256, and Vx is the one register written (`exec_setReg`). -/
theorem addVxNnWrapsWithoutAFlag : Obligations.AddVxNnWrapsWithoutAFlag := by
  intro x nn s
  obtain ⟨t, ht, hreg, rest⟩ := exec_setReg (d := .addVxNN x nn) (s := s) rfl
  refine ⟨decodeOfEncodeIsTheInstruction (.addVxNN x nn), t, ht, ?_, rest⟩
  rw [hreg, BitVec.toNat_add]

/-- Settles O42, by `exec_setReg`. -/
theorem ldVxVyCopiesTheRegister : Obligations.LdVxVyCopiesTheRegister := by
  intro x y s
  exact ⟨decodeOfEncodeIsTheInstruction (.ldVxVy x y), exec_setReg rfl⟩

/-- Settles O43: the word operations act on each bit alone, and Vx is the one register written (`exec_setReg`). -/
theorem logicIsBitwiseAndLeavesVf : Obligations.LogicIsBitwiseAndLeavesVf := by
  intro x y s
  refine ⟨decodeOfEncodeIsTheInstruction (.orVxVy x y), decodeOfEncodeIsTheInstruction (.andVxVy x y),
    decodeOfEncodeIsTheInstruction (.xorVxVy x y), ?_, ?_, ?_⟩
  · obtain ⟨t, ht, hreg, rest⟩ := exec_setReg (d := .orVxVy x y) (s := s) rfl
    exact ⟨t, ht, fun k => by rw [hreg, BitVec.getLsbD_or], rest⟩
  · obtain ⟨t, ht, hreg, rest⟩ := exec_setReg (d := .andVxVy x y) (s := s) rfl
    exact ⟨t, ht, fun k => by rw [hreg, BitVec.getLsbD_and], rest⟩
  · obtain ⟨t, ht, hreg, rest⟩ := exec_setReg (d := .xorVxVy x y) (s := s) rfl
    exact ⟨t, ht, fun k => by rw [hreg, BitVec.getLsbD_xor], rest⟩

/-- Settles O47: RND writes the drawn byte and NN to Vx, and no bit is both in NN and outside it; beside that it
counts the draw. -/
theorem rndMasksTheDrawnByte : Obligations.RndMasksTheDrawnByte := by
  intro x nn s
  have frame : SameOutside { regs := [x], draws := true } s (rndWith (Config.freeRnd s.draws) x nn s) :=
    ((SameOutside.refl _ s).then_setReg (List.mem_singleton_self x) _).then_advance
  have hreg : reg (rndWith (Config.freeRnd s.draws) x nn s) x = Config.freeRnd s.draws &&& nn := by
    rw [rndWith, reg_advance, reg_setReg, if_pos rfl]
  refine ⟨decodeOfEncodeIsTheInstruction (.rnd x nn), _, rfl, hreg, ?_, rfl, rfl, { frame with draws := nofun }⟩
  calc _ = Config.freeRnd s.draws &&& nn &&& ~~~nn := congrArg (· &&& ~~~nn) hreg
    _ = Config.freeRnd s.draws &&& 0 := by rw [BitVec.and_assoc, BitVec.and_not_self]
    _ = 0 := BitVec.and_zero

/-! ## Instructions that write Vx and then the flag -/

/-- Settles O44: the flag is the carry out of the old values, written after the sum (`exec_setRegThenFlag`). -/
theorem addVxVySetsTheCarryLast : Obligations.AddVxVySetsTheCarryLast := by
  intro x y s
  obtain ⟨t, ht, hreg, hflag, rest⟩ := exec_setRegThenFlag (d := .addVxVy x y) (s := s) rfl
  refine ⟨decodeOfEncodeIsTheInstruction (.addVxVy x y), t, ht, fun hx => ?_, hflag.trans (flagByte_decide _), rest⟩
  rw [hreg hx, BitVec.toNat_add]

/-- Settles O45: SUB and SUBN write a byte difference (`toNat_byte_sub`) and then the comparison of the same two bytes
(`exec_setRegThenFlag`). -/
theorem subAndSubnSetNoBorrowLast : Obligations.SubAndSubnSetNoBorrowLast := by
  intro x y s
  refine ⟨decodeOfEncodeIsTheInstruction (.subVxVy x y), decodeOfEncodeIsTheInstruction (.subnVxVy x y), ?_, ?_⟩
  · obtain ⟨t, ht, hreg, hflag, rest⟩ := exec_setRegThenFlag (d := .subVxVy x y) (s := s) rfl
    exact ⟨t, ht, fun hx => by rw [hreg hx, toNat_byte_sub], hflag.trans (flagByte_decide _), rest⟩
  · obtain ⟨t, ht, hreg, hflag, rest⟩ := exec_setRegThenFlag (d := .subnVxVy x y) (s := s) rfl
    exact ⟨t, ht, fun hx => by rw [hreg hx, toNat_byte_sub], hflag.trans (flagByte_decide _), rest⟩

/-- Settles O46: SHR halves and its flag is the remainder, SHL doubles and its flag is the carry of the doubling
(`toNat_shiftedOutRight`, `toNat_shiftedOutLeft`); the flag is written last (`exec_setRegThenFlag`). -/
theorem shiftsMoveVxAndSetTheBitShiftedOut : Obligations.ShiftsMoveVxAndSetTheBitShiftedOut := by
  intro x y s
  refine ⟨decodeOfEncodeIsTheInstruction (.shrVx x y), decodeOfEncodeIsTheInstruction (.shlVx x y), ?_, ?_⟩
  · obtain ⟨t, ht, hreg, hflag, rest⟩ := exec_setRegThenFlag (d := .shrVx x y) (s := s) rfl
    refine ⟨t, ht, fun hx => ?_, ?_, rest⟩
    · rw [hreg hx, toNat_byte_shiftRight_one]
    · rw [hflag, toNat_flagByte, toNat_shiftedOutRight]
  · obtain ⟨t, ht, hreg, hflag, rest⟩ := exec_setRegThenFlag (d := .shlVx x y) (s := s) rfl
    refine ⟨t, ht, fun hx => ?_, ?_, rest⟩
    · rw [hreg hx, toNat_byte_shiftLeft_one]
    · rw [hflag, toNat_flagByte, toNat_shiftedOutLeft]

end Sys2Proof.Proofs.RegisterAluRules
end

section
/-! The index and memory instructions said once per kind: a write of I, and the stores and loads at I with their run
inside or outside the memory (spec/42_index_memory.md R160 to R165). -/
namespace Sys2Proof.Machine

/-- An instruction that raises no error in `s` changes nothing outside its footprint. -/
theorem exec_frame {d : Instr} {s t : State} (h : exec d s = .next t) (hr : ∀ e, ¬ raises d s e) :
    SameOutside (execFootprint d s) s t :=
  (exec_cases h).resolve_left fun ⟨e, he, _⟩ => hr e he

/-! ## The index register -/

/-- An instruction that writes `a` to I and ends in NEXT (R11, R26): what it leaves. -/
theorem exec_setIndex {d : Instr} {s : State} {a : Word} (h : exec d s = .next (advance { s with i := a })) :
    ∃ t, exec d s = .next t ∧ t.i = a ∧ t.pc = s.pc + 2 ∧ SameOutside { index := true } s t := by
  have frame : SameOutside { index := true } s { s with i := a } := { SameOutside.refl _ s with index := nofun }
  exact ⟨_, h, rfl, rfl, frame.then_advance⟩

theorem lowNibble_toNat (s : State) (x : RegNum) : (lowNibble s x).toNat = (reg s x).toNat % 16 := by
  rw [lowNibble, BitVec.extractLsb'_toNat, Nat.shiftRight_zero]

/-- The last glyph begins below 0x200, so that its address does not wrap (R9, R162). -/
theorem glyphAddress_toNat (d : BitVec 4) : (glyphAddress d).toNat = Config.fontBase.val + 5 * d.toNat := by
  have hbase := Config.fontBase.isLt
  have hd := d.isLt
  rw [glyphAddress, BitVec.toNat_ofNat]
  omega

/-! ## Stores and loads at I -/

/-- An access at I that leaves the memory is the error and nothing else (R65, R203). -/
theorem withRange_runsOut {s : State} {n : Nat} (effect : Out) (h : runsOut s n) :
    withRange s.i n s effect = .next { s with runState := .halted (outOfBoundsAtI s) } :=
  withRange_outside s effect h

/-- FX33 with its run inside the memory stores the digits of Vx at I and goes on to the next slot (R163). -/
theorem exec_ldBVx_inside {x : RegNum} {s : State} (h : s.i.toNat + 2 ≤ 0xFFF) :
    exec (.ldBVx x) s = .next (advance (storeAtI s (decimalDigits (reg s x)))) :=
  withRange_inside s _ (.inr h)

/-- FX65 with its run inside the memory loads the bytes at I to V0 up to VX and goes on to the next slot (R165). -/
theorem exec_ldVxMem_inside {x : RegNum} {s : State} (h : s.i.toNat + x.toNat ≤ 0xFFF) :
    exec (.ldVxMem x) s = .next (advance (setRegsFrom s 0 (bytesAtI s (x.toNat + 1)))) :=
  withRange_inside s _ (.inr h)

/-- No digit is above 9, so that the bytes hold the digits as they are (R163). -/
theorem decimalDigits_toNat (b : Byte) :
    (decimalDigits b).map BitVec.toNat = [b.toNat / 100, b.toNat / 10 % 10, b.toNat % 10] := by
  have hb := b.isLt
  simp only [decimalDigits, List.map_cons, List.map_nil, BitVec.toNat_ofNat, List.cons.injEq, and_true]
  omega

/-- The byte at I + k after the store of the digits is digit `k`, hundreds first (R163). -/
theorem readByte_storeAtI_decimalDigits (s : State) (b : Byte) {k : Nat} (hk : k < 3) :
    (readByte (storeAtI s (decimalDigits b)).mem (s.i.toNat + k)).toNat =
      [b.toNat / 100, b.toNat / 10 % 10, b.toNat % 10][k] := by
  have hlen : k < (decimalDigits b).length := hk
  rw [storeAtI_mem, readByte_writeBytes_inside _ _ _ _ hlen, ← List.getElem_map BitVec.toNat]
  · exact List.getElem_of_eq (decimalDigits_toNat b) _
  · rwa [List.length_map]

/-- After the load of the X + 1 bytes at I, V0 to VX hold them in order and the registers above VX are kept (R165). -/
theorem reg_setRegsFrom_bytesAtI (s : State) (x r : RegNum) :
    reg (setRegsFrom s 0 (bytesAtI s (x.toNat + 1))) r =
      if r ≤ x then readByte s.mem (s.i.toNat + r.toNat) else reg s r := by
  have hx := x.isLt
  have hlen : (bytesAtI s (x.toNat + 1)).length = x.toNat + 1 := readBytes_length _ _ _
  rw [reg_setRegsFrom _ _ _ _ (by omega)]
  by_cases hr : r ≤ x
  · have hr' : r.toNat ≤ x.toNat := hr
    rw [if_pos hr, dif_pos (by omega)]
    exact readBytes_getElem _ _ _ _ _
  · have hr' : ¬ r.toNat ≤ x.toNat := hr
    rw [if_neg hr, dif_neg (by omega)]

end Sys2Proof.Machine
end

section
/-! Index register and memory (spec/42_index_memory.md): the writes of I, the decimal store, and the store and load of
a run of registers. -/
namespace Sys2Proof.Proofs.IndexMemoryRules
open Sys2Proof Sys2Proof.Machine EncodingRules

/-! ## Stores and loads at I -/

/-- Settles O50: outside the memory the error comes before any byte (`withRange_runsOut`), and inside it the bytes at
I are the digits (`readByte_storeAtI_decimalDigits`). -/
theorem ldBStoresThreeDecimalDigits : Obligations.LdBStoresThreeDecimalDigits := by
  intro x s
  refine ⟨decodeOfEncodeIsTheInstruction (.ldBVx x),
    fun hout => withRange_runsOut _ ⟨Nat.succ_pos 2, hout⟩, fun hin => ?_⟩
  have digit (k : Nat) (hk : k < 3) := readByte_storeAtI_decimalDigits s (reg s x) hk
  have frame := exec_frame (exec_ldBVx_inside (x := x) hin) fun _ ⟨⟨_, hout⟩, _⟩ => by omega
  exact ⟨_, exec_ldBVx_inside hin, digit 0 (by decide), digit 1 (by decide), digit 2 (by decide), rfl, frame⟩

/-- Settles O51: outside the memory the error comes before any byte (`withRange_runsOut`), and inside it byte `r` of
the run at I is Vr (`readByte_storeAtI_regsUpTo`). -/
theorem dumpStoresV0ToVx : Obligations.DumpStoresV0ToVx := by
  intro x s
  refine ⟨decodeOfEncodeIsTheInstruction (.ldMemVx x),
    fun hout => withRange_runsOut _ ⟨Nat.succ_pos _, hout⟩, fun hin => ?_⟩
  have frame := exec_frame (exec_ldMemVx_inside hin) fun _ ⟨⟨_, hout⟩, _⟩ => by omega
  refine ⟨_, exec_ldMemVx_inside hin, fun r hr => ?_, rfl, frame⟩
  rw [advance_mem, readByte_storeAtI_regsUpTo s hr, BitVec.ofNat_toNat, BitVec.setWidth_eq]

/-- Settles O52: outside the memory the error comes before any register (`withRange_runsOut`), and inside it the
registers up to VX are loaded and no other (`reg_setRegsFrom_bytesAtI`). -/
theorem loadReadsV0ToVx : Obligations.LoadReadsV0ToVx := by
  intro x s
  refine ⟨decodeOfEncodeIsTheInstruction (.ldVxMem x),
    fun hout => withRange_runsOut _ ⟨Nat.succ_pos _, hout⟩, fun hin => ?_⟩
  have frame := exec_frame (exec_ldVxMem_inside hin) fun _ ⟨⟨_, hout⟩, _⟩ => by omega
  refine ⟨_, exec_ldVxMem_inside hin, reg_setRegsFrom_bytesAtI s x, ?_, frame⟩
  rw [advance_pc, setRegsFrom_eq]

/-! ## The index register -/

/-- Settles O48, by `exec_setIndex`: NNN is zero extended, and the sum of words is the sum modulo 65536. -/
theorem ldIAndAddIWriteTheIndex : Obligations.LdIAndAddIWriteTheIndex := by
  intro nnn x s
  refine ⟨decodeOfEncodeIsTheInstruction (.ldI nnn), decodeOfEncodeIsTheInstruction (.addIVx x), ?_, ?_⟩
  · obtain ⟨t, ht, hi, rest⟩ := exec_setIndex (d := .ldI nnn) (s := s) rfl
    exact ⟨t, ht, by rw [hi, addressOperand_toNat], rest⟩
  · obtain ⟨t, ht, hi, rest⟩ := exec_setIndex (d := .addIVx x) (s := s) rfl
    exact ⟨t, ht, by rw [hi, BitVec.toNat_add, regAsWord_toNat], rest⟩

/-- Settles O49, by `exec_setIndex`: the glyph address of the low nibble does not wrap (`glyphAddress_toNat`). -/
theorem ldFGivesTheGlyphAddress : Obligations.LdFGivesTheGlyphAddress := by
  intro x s
  obtain ⟨t, ht, hi, rest⟩ := exec_setIndex (d := .ldFVx x) (s := s) rfl
  refine ⟨decodeOfEncodeIsTheInstruction (.ldFVx x), t, ht, ?_, rest⟩
  rw [hi, glyphAddress_toNat, lowNibble_toNat]

end Sys2Proof.Proofs.IndexMemoryRules
end

section
/-! The display instructions said once: the cleared display, and what the drawing of a sprite does to each pixel and
to VF, in terms of the pixels the sprite covers (spec/43_display.md R180 to R183). -/
namespace Sys2Proof.Machine

/-! ## Drawing a sprite -/

/-- DRW with its rows inside the memory, or with none, draws the sprite and goes on to the next slot (R181). -/
theorem exec_drw_inside {x y : RegNum} {n : BitVec 4} {s : State} (h : n = 0 ∨ s.i.toNat + n.toNat - 1 ≤ 0xFFF) :
    exec (.drw x y n) s = .next (advance (drawSprite x y n.toNat s)) :=
  withRange_inside s _ (h.imp_left (congrArg BitVec.toNat))

section
variable {x y : RegNum} {n : Nat} {s : State} (hn : n ≤ 32)
include hn

/-- Every pixel is XORed with the bit of the sprite that lands on it (R181). -/
theorem pixel_drawSprite (p : Pixel) :
    pixel (drawSprite x y n s).fb p =
      (pixel s.fb p ^^ spriteBit (bytesAtI s n) (rowOperand s y) (columnOperand s x) p) :=
  blit_pixel _ _ _ _ (by rwa [bytesAtI, readBytes_length]) p

/-- A pixel that the sprite covers is flipped (R181). -/
theorem pixel_drawSprite_of_covers {p : Pixel} (h : spriteCovers s x y n p) :
    pixel (drawSprite x y n s).fb p = !pixel s.fb p := by
  rw [pixel_drawSprite hn, (spriteBit_bytesAtI s x y n p).mpr h, Bool.xor_true]

/-- A pixel that the sprite does not cover stays (R181). -/
theorem pixel_drawSprite_of_not_covers {p : Pixel} (h : ¬ spriteCovers s x y n p) :
    pixel (drawSprite x y n s).fb p = pixel s.fb p := by
  rw [pixel_drawSprite hn, Bool.eq_false_iff.mpr (mt (spriteBit_bytesAtI s x y n p).mp h), Bool.xor_false]

/-- VF after the drawing is the collision flag as a byte: 1 when a covered pixel was set, otherwise 0 (R181). -/
theorem vf_drawSprite :
    ∃ b, reg (drawSprite x y n s) VF = flagByte b ∧
      (b = true ↔ ∃ p, spriteCovers s x y n p ∧ pixel s.fb p = true) := by
  refine ⟨_, by rw [drawSprite, reg_setReg, if_pos rfl], ?_⟩
  rw [blit_collision _ _ _ _ (by rwa [bytesAtI, readBytes_length])]
  exact exists_congr fun p => and_congr_left' (spriteBit_bytesAtI s x y n p)

theorem vf_drawSprite_eq_one_iff :
    reg (drawSprite x y n s) VF = 1 ↔ ∃ p, spriteCovers s x y n p ∧ pixel s.fb p = true := by
  obtain ⟨b, hb, collides⟩ := vf_drawSprite (x := x) (y := y) (s := s) hn
  rw [hb, ← collides]
  cases b with
  | false => decide
  | true => decide

theorem vf_drawSprite_eq_zero (h : ∀ p, spriteCovers s x y n p → pixel s.fb p = false) :
    reg (drawSprite x y n s) VF = 0 := by
  obtain ⟨b, hb, collides⟩ := vf_drawSprite (x := x) (y := y) (s := s) hn
  have unset : b = false := Bool.eq_false_iff.mpr fun hset => by
    obtain ⟨p, hp, hpix⟩ := collides.mp hset
    exact Bool.false_ne_true ((h p hp).symm.trans hpix)
  rw [hb, unset]
  rfl

end

/-- The pixels a sprite covers depend on Vx, Vy, I and the memory alone, so a drawing at other registers than VF
leaves them (R183). -/
theorem spriteCovers_drawSprite {x y : RegNum} (hx : x ≠ VF) (hy : y ≠ VF) (n m : Nat) (s : State) (p : Pixel) :
    spriteCovers (advance (drawSprite x y m s)) x y n p ↔ spriteCovers s x y n p := by
  have hregx : reg (drawSprite x y m s) x = reg s x := by rw [drawSprite, reg_setReg, if_neg hx.symm]; rfl
  have hregy : reg (drawSprite x y m s) y = reg s y := by rw [drawSprite, reg_setReg, if_neg hy.symm]; rfl
  simp only [spriteCovers, reg_advance, hregx, hregy]
  rfl

/-- A second drawing of a sprite undoes the flips of the first (R183). -/
theorem drawSprite_twice_fb {x y : RegNum} (hx : x ≠ VF) (hy : y ≠ VF) {n : Nat} (hn : n ≤ 32) (s : State) :
    (drawSprite x y n (advance (drawSprite x y n s))).fb = s.fb := by
  refine screen_ext fun p => ?_
  have same := spriteCovers_drawSprite hx hy n n s p
  by_cases hp : spriteCovers s x y n p
  · rw [pixel_drawSprite_of_covers hn (same.mpr hp), advance_fb, pixel_drawSprite_of_covers hn hp, Bool.not_not]
  · rw [pixel_drawSprite_of_not_covers hn (mt same.mp hp), advance_fb, pixel_drawSprite_of_not_covers hn hp]

end Sys2Proof.Machine
end

section
/-! Display (spec/43_display.md): the clearing of the display, the XOR drawing of a sprite with its collision flag, and
the drawing of the same sprite twice. -/
namespace Sys2Proof.Proofs.DisplayRules
open Sys2Proof Sys2Proof.Machine EncodingRules

/-- Settles O55: a sprite that leaves the memory is the error alone (`withRange_runsOut`), and any other flips the
pixels it covers and writes the collision to VF (`pixel_drawSprite_of_covers`, `vf_drawSprite_eq_one_iff`). -/
theorem drwXorsTheSpriteAndReportsCollision : Obligations.DrwXorsTheSpriteAndReportsCollision := by
  intro x y n s
  have rows : n.toNat ≤ 32 := n.isLt.le.trans (by decide)
  refine ⟨decodeOfEncodeIsTheInstruction (.drw x y n), fun hn hout => ?_, fun hin => ?_⟩
  · have rowsPos : 0 < n.toNat := Nat.pos_of_ne_zero fun h => hn (BitVec.eq_of_toNat_eq h)
    exact withRange_runsOut _ ⟨rowsPos, hout⟩
  · have inside : ¬ runsOut s n.toNat := fun ⟨hpos, hout⟩ => by
      rcases hin with rfl | hin
      · exact absurd hpos (Nat.lt_irrefl 0)
      · omega
    exact ⟨_, exec_drw_inside hin,
      fun _ => ⟨pixel_drawSprite_of_covers rows, pixel_drawSprite_of_not_covers rows⟩,
      (vf_drawSprite_eq_one_iff rows).mpr, vf_drawSprite_eq_zero rows, rfl,
      exec_frame (exec_drw_inside hin) fun _ hr => inside hr.1⟩

/-- Settles O56: the second drawing covers the same pixels (`spriteCovers_drawSprite`), so that it flips back what the
first flipped (`drawSprite_twice_fb`), and on a clear display it meets exactly the pixels the first has set. -/
theorem drawingTwiceRestoresTheDisplay : Obligations.DrawingTwiceRestoresTheDisplay := by
  intro x y n s hx hy hin
  have rows : n.toNat ≤ 32 := n.isLt.le.trans (by decide)
  have second : reg (drawSprite x y n.toNat (advance (drawSprite x y n.toNat s))) VF = 1 ↔
      ∃ p, spriteCovers s x y n.toNat p ∧ pixel (drawSprite x y n.toNat s).fb p = true := by
    rw [vf_drawSprite_eq_one_iff rows]
    exact exists_congr fun p => and_congr_left' (spriteCovers_drawSprite hx hy _ _ s p)
  refine ⟨_, _, exec_drw_inside hin, exec_drw_inside hin, drawSprite_twice_fb hx hy rows s, second, fun clear => ?_⟩
  refine ⟨vf_drawSprite_eq_zero rows fun p _ => clear p, second.trans (exists_congr fun p => ?_)⟩
  refine and_iff_left_of_imp fun hp => ?_
  rw [pixel_drawSprite_of_covers rows hp, clear p, Bool.not_false]

/-- Settles O54: CLS stores the cleared display (`pixel_clearScreen`), and its footprint is the display alone. -/
theorem clsClearsEveryPixel : Obligations.ClsClearsEveryPixel := by
  intro s
  exact ⟨decodeOfEncodeIsTheInstruction .cls, _, rfl, pixel_clearScreen, rfl,
    exec_frame (d := .cls) rfl fun _ hr => hr⟩

end Sys2Proof.Proofs.DisplayRules
end

section
/-! The key wait said once per event: the step that suspends, a press and a release while the core waits, the step that
retires, and the run of the four (spec/44_keypad_timers.md R192; spec/60_exceptions.md R211, R221). -/
namespace Sys2Proof.Machine
open Proofs.EncodingRules

/-- A step that answers a next state is the first step of a run. -/
theorem core_run_succ {s t : State} (n : Nat) (h : step s = .next t) :
    Host.Core.run core (n + 1) s = Host.Core.run core n t := by
  have hcore : core.step s = .next t := h
  simp only [Host.Core.run, hcore]

/-! ## The events of a key wait -/

/-- `s` waiting for a key, with the latch `l` and the events `rest` still to come (R33, R34). -/
def keyWaiting (s : State) (l : Option KeyNum) (rest : List Event) : State :=
  { s with latch := l, runState := .waitingForKey, inputs := rest }

section
variable {s : State} {k : KeyNum} {l : Option KeyNum} {rest : List Event}

/-- The waiting core serves the oldest event (R8). -/
theorem step_keyWaiting (e : Event) :
    step (keyWaiting s l (e :: rest)) = handleEvent e (keyWaiting s l rest) := step_input rfl

/-- A press writes the key flag alone (R221). -/
theorem step_keyWaiting_press :
    step (keyWaiting s l (.setPressed k true :: rest)) = .next (keyWaiting (setKey s k true) l rest) := by
  have unqualified : qualifies k true (keyWaiting s l rest) = false := Bool.and_false _
  rw [step_keyWaiting, handleEvent, setPressed_eq, unqualified]
  rfl

/-- The release of a pressed key writes the key flag and latches the key (R221). -/
theorem step_keyWaiting_release (hk : key s k = true) :
    step (keyWaiting s l (.setPressed k false :: rest)) = .next (keyWaiting (setKey s k false) (some k) rest) := by
  have qualified : qualifies k false (keyWaiting s l rest) = true := (Bool.and_true _).trans hk
  rw [step_keyWaiting, handleEvent, setPressed_eq, qualified]
  rfl

end

section
variable {s : State} {op : Word} {x : RegNum} {k : KeyNum} {rest : List Event}
variable (hf : fetch s = .ok op) (hd : decode op = some (.ldVxK x))
include hf hd

/-- The step at an FX0A suspends the core with the latch empty (R192, R210). -/
theorem step_suspends (hrun : s.runState = .running) (hin : s.inputs = .step :: rest) :
    step s = .next (keyWaiting s none rest) := by
  calc step s
    _ = stepEvent { s with inputs := rest } := step_input hin
    _ = runCycle { s with inputs := rest } := stepEvent_running hrun
    _ = exec (.ldVxK x) { s with inputs := rest } := runCycle_decoded hf hd

/-- The destination of the wait at the word of LD Vx, K is Vx: the X field of the word is x (R192, R211). -/
theorem waitDestination_ldVxK : waitDestination s = x := by
  rw [waitDestination_eq_opX hf, ← encodeOfDecodeIsTheWord op _ hd]
  exact opX_formatI 0xF x 0x0A

/-- The step with a latched key writes its number to Vx and goes on to the next slot (R192, R211). -/
theorem step_keyWaiting_retires :
    step (keyWaiting s (some k) (.step :: rest)) = .next (advance
      { setReg s x (k.setWidth 8) with latch := none, runState := .running, inputs := rest }) := by
  have dest : waitDestination (keyWaiting s (some k) rest) = x := waitDestination_ldVxK hf hd
  rw [step_keyWaiting, handleEvent, stepEvent_waiting rfl, retireKeyWait_some rfl, dest]
  rfl

/-- The four events of a key wait, from the FX0A to the slot after it (R192, R211, R221). -/
theorem run_keyWait (hrun : s.runState = .running)
    (hin : s.inputs = [.step, .setPressed k true, .setPressed k false, .step]) :
    Host.Core.run core 4 s = .next (advance
      { setReg (setKey (setKey s k true) k false) x (k.setWidth 8) with
        latch := none, runState := .running, inputs := [] }) := by
  have pressed : key (setKey s k true) k = true := (key_setKey s k k true).trans (if_pos rfl)
  have fetched : fetch (setKey (setKey s k true) k false) = .ok op := hf
  calc Host.Core.run core 4 s
    _ = Host.Core.run core 3 (keyWaiting s none [.setPressed k true, .setPressed k false, .step]) :=
      core_run_succ 3 (step_suspends hf hd hrun hin)
    _ = Host.Core.run core 2 (keyWaiting (setKey s k true) none [.setPressed k false, .step]) :=
      core_run_succ 2 step_keyWaiting_press
    _ = Host.Core.run core 1 (keyWaiting (setKey (setKey s k true) k false) (some k) [.step]) :=
      core_run_succ 1 (step_keyWaiting_release pressed)
    _ = _ := core_run_succ 0 (step_keyWaiting_retires fetched hd)

end

/-! ## The timers -/

/-- The sound is on exactly while ST is not 0 (R7). -/
theorem soundActive_iff (s : State) : soundActive s = true ↔ s.st ≠ 0 := bne_iff_ne

end Sys2Proof.Machine
end

section
/-! Keypad and timers (spec/44_keypad_timers.md): the key wait, the skips on a key, and the timer instructions. -/
namespace Sys2Proof.Proofs.KeypadTimerRules
open Sys2Proof Sys2Proof.Machine EncodingRules

/-! ## The key wait -/

/-- Settles O60: the four events end in the state that `run_keyWait` names, with key `k` written twice and Vx once. -/
theorem keyWaitDeliversTheReleasedKey : Obligations.KeyWaitDeliversTheReleasedKey := by
  intro s op x k hrun hin hf hd
  have hreg (r : RegNum) := reg_setReg (setKey (setKey s k true) k false) x r (k.setWidth 8)
  have hkey (j : KeyNum) := key_setKey (setKey s k true) k j false
  refine ⟨_, run_keyWait hf hd hrun hin, ?_, fun r hr => (hreg r).trans (if_neg hr.symm), rfl, rfl, rfl, rfl,
    (hkey k).trans (if_pos rfl), fun j hj => ?_, rfl, rfl, rfl, rfl, rfl⟩
  · have hx := (hreg x).trans (if_pos rfl)
    calc _ = (k.setWidth 8).toNat := congrArg BitVec.toNat hx
      _ = k.toNat := BitVec.toNat_setWidth_of_le (by decide)
  · calc _ = key (setKey s k true) j := (hkey j).trans (if_neg hj.symm)
      _ = key s j := (key_setKey s k j true).trans (if_neg hj.symm)

/-- Settles O59: the first part of the instruction writes the latch and the run state, its whole footprint. -/
theorem ldVxKSuspends : Obligations.LdVxKSuspends := by
  intro x s
  exact ⟨decodeOfEncodeIsTheInstruction (.ldVxK x), _, rfl, rfl, rfl, rfl,
    exec_frame (d := .ldVxK x) rfl fun _ hr => hr⟩

/-! ## Skips on a key -/

/-- Settles O57: the key number is the low nibble of Vx (`lowNibble_toNat`), and the skips are `exec_skip` with its
flag and with the negation. -/
theorem keySkipsTestTheKeyOfVx : Obligations.KeySkipsTestTheKeyOfVx := by
  intro x k s hk
  obtain rfl : k = lowNibble s x := BitVec.eq_of_toNat_eq (hk.trans (lowNibble_toNat s x).symm)
  exact ⟨decodeOfEncodeIsTheInstruction (.skp x), decodeOfEncodeIsTheInstruction (.sknp x), rfl,
    exec_skip rfl Iff.rfl, exec_skip rfl (Bool.not_eq_true' _).to_iff⟩

/-! ## The timers -/

/-- Settles O58: FX07 writes Vx alone (`exec_setReg`), FX15 and FX18 each one timer, their footprint (`exec_frame`),
and the sound is on while ST is not 0 (`soundActive_iff`). -/
theorem timerInstructionsMoveTheTimers : Obligations.TimerInstructionsMoveTheTimers := by
  intro x s
  refine ⟨decodeOfEncodeIsTheInstruction (.ldVxDt x), decodeOfEncodeIsTheInstruction (.ldDtVx x),
    decodeOfEncodeIsTheInstruction (.ldStVx x), exec_setReg rfl, ?_, ?_⟩
  · exact ⟨_, rfl, rfl, rfl, exec_frame (d := .ldDtVx x) rfl fun _ hr => hr⟩
  · exact ⟨_, rfl, rfl, soundActive_iff _, rfl, exec_frame (d := .ldStVx x) rfl fun _ hr => hr⟩

end Sys2Proof.Proofs.KeypadTimerRules
end

section
/-! What ends an event, said once: the outcome of an instruction that raises an error and of one that does not, the
run state after the fetch-decode-execute cycle and after each event, and what a tick, a key event and the retiring key
wait write (spec/60_exceptions.md R200 to R221). -/
namespace Sys2Proof.Machine

/-! ## Errors of an instruction -/

/-- An instruction whose error condition holds answers that error and has no other effect (R201, R203). -/
theorem exec_of_raises {d : Instr} {s : State} {e : HaltReason} (h : raises d s e) :
    exec d s = .next { s with runState := .halted e } := by
  cases d with
  | call nnn =>
    obtain ⟨hsp, rfl⟩ := h
    exact exec_call_full nnn hsp
  | ret =>
    obtain ⟨hsp, rfl⟩ := h
    exact exec_ret_empty hsp
  | drw x y n | ldBVx x | ldMemVx x | ldVxMem x =>
    obtain ⟨hr, rfl⟩ := h
    exact withRange_runsOut _ hr
  | _ => exact h.elim

/-- A bounds-checked access with an effect answers a next state, its error's or its effect's (R65). -/
theorem withRange_answers (base : Word) (n : Nat) (s t : State) : ∃ u, withRange base n s (.next t) = .next u := by
  rcases withRange_cases base n s (.next t) with ⟨e, -, h⟩ | ⟨-, h⟩
  · exact ⟨_, h⟩
  · exact ⟨_, h⟩

/-- Every instruction answers a next state, an error being one (R203, R267). -/
theorem exec_answers (d : Instr) (s : State) : ∃ t, exec d s = .next t := by
  cases d with
  | call nnn =>
    rcases Nat.lt_or_eq_of_le (Nat.le_of_lt_succ s.sp.isLt) with hsp | hsp
    · exact ⟨_, exec_call_room nnn hsp⟩
    · exact ⟨_, exec_call_full nnn hsp⟩
  | ret =>
    rcases Nat.eq_zero_or_pos s.sp.val with hsp | hsp
    · exact ⟨_, exec_ret_empty hsp⟩
    · exact ⟨_, exec_ret_used (j := ⟨s.sp.val - 1, by omega⟩) (Nat.sub_add_cancel hsp).symm⟩
  | drw x y n | ldBVx x | ldMemVx x | ldVxMem x => exact withRange_answers _ _ _ _
  | _ => exact ⟨_, rfl⟩

/-- An instruction other than LD Vx, K that raises no error keeps the run state (R205). -/
theorem exec_keeps_runState {d : Instr} {s t : State} (h : exec d s = .next t) (hr : ∀ e, ¬ raises d s e)
    (hk : ∀ x, d ≠ .ldVxK x) : t.runState = s.runState := by
  rcases exec_run_cases h with ⟨e, he, -⟩ | ⟨x, hx, -⟩ | ⟨hrun, -⟩
  · exact absurd he (hr e)
  · exact absurd hx (hk x)
  · exact hrun

/-- A cycle in `Running` that halts has recorded the reason and changed nothing else (R203). -/
theorem runCycle_halts_precisely {s t : State} {e : HaltReason} (hrun : s.runState = .running)
    (h : runCycle s = .next t) (ht : t.runState = .halted e) : t = { s with runState := .halted e } := by
  rcases runCycle_cases s with ⟨_, -, hc⟩ | ⟨_, -, -, hc⟩ | ⟨_, d, -, -, hc⟩
  · cases hc.symm.trans h
    cases ht
    rfl
  · cases hc.symm.trans h
    cases ht
    rfl
  · rcases exec_run_cases (hc.symm.trans h) with ⟨e', -, rfl⟩ | ⟨x, -, rfl⟩ | ⟨hkept, -⟩
    · cases ht
      rfl
    · cases ht
    · cases (hkept.trans hrun).symm.trans ht

/-! ## Events -/

section
variable {s t : State} {k : KeyNum} {down : Bool}

/-- After a key event the flag of key `k` is `down` and every other flag is the old one (R221). -/
theorem key_setPressed (j : KeyNum) : key (setPressed k down s) j = if k = j then down else key s j := by
  rw [setPressed_eq]
  exact key_setKey s k j down

/-- The three conditions of a release that qualifies (R221). -/
theorem qualifies_iff : qualifies k down s = true ↔ s.runState = .waitingForKey ∧ key s k = true ∧ down = false := by
  rw [qualifies, Bool.and_eq_true, Bool.and_eq_true, beq_iff_eq, Bool.not_eq_true', and_assoc]

theorem setPressed_latch : (setPressed k down s).latch = if qualifies k down s then some k else s.latch := by
  rw [setPressed_eq]

theorem setPressed_runState : (setPressed k down s).runState = s.runState := by rw [setPressed_eq]

/-- The run state after a `load_program` that has a next state, by the length of the image (R254 to R256). -/
theorem loadProgram_runState {bytes : List Byte} (h : loadProgram bytes s = .next t) :
    s.runState = .running ∧
      t.runState = if bytes.length ≤ 3584 then .running else .halted (.programTooLarge bytes.length) := by
  obtain ⟨hboot, hload⟩ := loadProgram_next h
  have hrun : s.runState = .running := congrArg State.runState hboot
  rcases hload with ⟨hl, rfl⟩ | ⟨hl, rfl⟩
  · exact ⟨hrun, hrun.trans (if_pos hl).symm⟩
  · exact ⟨hrun, (if_neg (Nat.not_le_of_lt hl)).symm⟩

/-- Every event but `init` that is answered in `Halted` keeps the reason (R206). -/
theorem handleEvent_keeps_halted {e : Event} {r : HaltReason} (hr : s.runState = .halted r) (he : e ≠ .init)
    (h : handleEvent e s = .next t) : t.runState = .halted r := by
  cases e with
  | init => exact absurd rfl he
  | loadProgram bytes => cases (loadProgram_runState h).1.symm.trans hr
  | step =>
    cases (stepEvent_halted hr).symm.trans h
    exact hr
  | tick =>
    cases h
    exact hr
  | setPressed k down =>
    cases h
    exact setPressed_runState.trans hr

end

/-- After `n` ticks each timer holds what is left of it (R220). -/
theorem tick_iterate (s : State) (n : Nat) :
    ((tick^[n]) s).dt.toNat = s.dt.toNat - n ∧ ((tick^[n]) s).st.toNat = s.st.toNat - n := by
  induction n with
  | zero => exact ⟨rfl, rfl⟩
  | succ n ih =>
    obtain ⟨hdt, hst⟩ := ih
    rw [Function.iterate_succ_apply']
    constructor
    · calc (countDown ((tick^[n]) s).dt).toNat
        _ = ((tick^[n]) s).dt.toNat - 1 := countDown_toNat _
        _ = s.dt.toNat - (n + 1) := by omega
    · calc (countDown ((tick^[n]) s).st).toNat
        _ = ((tick^[n]) s).st.toNat - 1 := countDown_toNat _
        _ = s.st.toNat - (n + 1) := by omega

/-! ## The retiring key wait -/

/-- The destination of the wait is the register numbered by the low nibble of the byte at PC (R211). -/
theorem waitDestination_toNat (s : State) :
    (waitDestination s).toNat = (readByte s.mem s.pc.toNat).toNat % 16 := by
  rw [waitDestination, BitVec.extractLsb'_toNat, Nat.shiftRight_zero]

/-- The waiting step with a latched key writes the destination, the latch, the run state and the PC only (R211). -/
theorem retireKeyWait_frame {s : State} {k : KeyNum} (h : s.latch = some k) :
    SameOutside { regs := [waitDestination s], latch := true, run := true } s (retireKeyWait s) := by
  rw [retireKeyWait_some h]
  have written := (SameOutside.refl { regs := [waitDestination s], latch := true, run := true } s).then_setReg
    (List.mem_singleton_self _) (k.setWidth 8)
  exact { written with latch := nofun, run := nofun }

/-- The destination gets the number of the latched key (R211). -/
theorem reg_retireKeyWait {s : State} {k : KeyNum} (h : s.latch = some k) :
    (reg (retireKeyWait s) (waitDestination s)).toNat = k.toNat := by
  have hx : reg (retireKeyWait s) (waitDestination s) = k.setWidth 8 := by
    rw [retireKeyWait_some h]
    exact (reg_setReg s _ _ _).trans (if_pos rfl)
  rw [hx, BitVec.toNat_setWidth_of_le (by decide)]

end Sys2Proof.Machine
end

section
/-! Exceptions and events (spec/60_exceptions.md): the step in its three run states, the errors of an instruction, the
transitions of the run state, and the events that are not steps. -/
namespace Sys2Proof.Proofs.ExceptionRules
open Sys2Proof Sys2Proof.Machine EncodingRules

/-! ## The run state and errors -/

/-- Settles O20: an instruction whose condition holds answers its error (`exec_of_raises`); any other answers a next
state (`exec_answers`), whose run state is one of the three of `exec_run_cases`. -/
theorem execRaisesExactlyTheListedErrors : Obligations.ExecRaisesExactlyTheListedErrors := by
  intro d s
  refine ⟨fun e => exec_of_raises, fun hr => ?_⟩
  obtain ⟨t, h⟩ := exec_answers d s
  refine ⟨t, h, ?_⟩
  rcases exec_run_cases h with ⟨e, he, -⟩ | ⟨x, -, rfl⟩ | ⟨hkept, -⟩
  · exact absurd he (hr e)
  · exact .inr rfl
  · exact .inl hkept

/-- Settles O21: with no event issued the step in `Running` is the cycle, which halts precisely. -/
theorem faultsArePrecise : Obligations.FaultsArePrecise := by
  intro s t e hrun hin h
  exact runCycle_halts_precisely hrun (((step_default hin).trans (stepEvent_running hrun)).symm.trans h)

/-- Settles O19: an event at a time, the step by its run state and the cycle by its phase. -/
theorem runStateFollowsTheTransitionTable : Obligations.RunStateFollowsTheTransitionTable := by
  intro s t e h
  refine ⟨?init, ?load, ?tick, ?pressed, ?halted, ?retires, ?waits, ?runs⟩
  case init =>
    rintro rfl
    cases h
    rfl
  case load =>
    rintro bytes rfl
    exact loadProgram_runState h
  case tick =>
    rintro rfl
    cases h
    rfl
  case pressed =>
    rintro k down rfl
    cases h
    exact setPressed_runState
  case halted =>
    rintro r rfl hr
    cases (stepEvent_halted hr).symm.trans h
    exact hr
  case retires =>
    rintro k rfl hw hl
    cases (stepEvent_waiting hw).symm.trans h
    rw [retireKeyWait_some hl]
    rfl
  case waits =>
    rintro rfl hw hl
    cases (stepEvent_waiting hw).symm.trans h
    rw [retireKeyWait_none hl]
    exact hw
  case runs =>
    rintro rfl hrun
    have cycle : runCycle s = .next t := (stepEvent_running hrun).symm.trans h
    refine ⟨fun r hf => ?_, fun op hf hd => ?_, fun op d hf hd => ?_⟩
    · cases (runCycle_fetch_error hf).symm.trans cycle
      rfl
    · cases (runCycle_unknown hf hd).symm.trans cycle
      rfl
    · have executed : exec d s = .next t := (runCycle_decoded hf hd).symm.trans cycle
      refine ⟨fun r hr => ?_, fun hr => ⟨?_, fun hk => (exec_keeps_runState executed hr hk).trans hrun⟩⟩
      · cases (exec_of_raises hr).symm.trans executed
        rfl
      · rintro x rfl
        cases executed
        rfl

/-- Settles O22: with no event issued the step changes nothing, and every event but `init` keeps the reason
(`handleEvent_keeps_halted`). -/
theorem haltedIsLeftOnlyByInit : Obligations.HaltedIsLeftOnlyByInit := by
  intro s t r hr h
  cases hin : s.inputs with
  | nil =>
    cases ((step_default hin).trans (stepEvent_halted hr)).symm.trans h
    exact .inl hr
  | cons e rest =>
    by_cases he : e = .init
    · exact .inr ⟨rest, by rw [he]⟩
    · have halted : { s with inputs := rest }.runState = .halted r := hr
      exact .inl (handleEvent_keeps_halted halted he ((step_input hin).symm.trans h))

/-! ## The step in each run state -/

/-- Settles O7: the step is the cycle, in its three phases. -/
theorem stepRunsTheDecodedInstruction : Obligations.StepRunsTheDecodedInstruction := by
  intro s hrun hin
  rw [step_default hin, stepEvent_running hrun]
  exact ⟨fun e => runCycle_fetch_error, fun op => runCycle_unknown, fun op d => runCycle_decoded⟩

/-- Settles O9: the two cases of the waiting step by the latch; with a key latched the register of the statement is
the destination (`waitDestination_toNat`). -/
theorem waitingStepRetiresOrChangesNothing : Obligations.WaitingStepRetiresOrChangesNothing := by
  intro s hw hin
  have waits : step s = .next (retireKeyWait s) := (step_default hin).trans (stepEvent_waiting hw)
  refine ⟨fun hl => ?_, fun k hl => ⟨_, waits, fun x _ hx => ?_, ?_, ?_, ?_⟩⟩
  · rw [waits, retireKeyWait_none hl]
  · obtain rfl : x = waitDestination s := BitVec.eq_of_toNat_eq (hx.trans (waitDestination_toNat s).symm)
    exact ⟨reg_retireKeyWait hl, retireKeyWait_frame hl⟩
  all_goals
    rw [retireKeyWait_some hl]
    rfl

/-- Settles O10: the step is the `step` event, which leaves a halted state. -/
theorem haltedStepChangesNothing : Obligations.HaltedStepChangesNothing := by
  intro s r hr hin
  rw [step_default hin, stepEvent_halted hr]

/-- Settles O39: the word is that of the jump (O2), and the step executes it (O7): the PC gets the value it has. -/
theorem selfJumpLeavesTheWholeState : Obligations.SelfJumpLeavesTheWholeState := by
  intro nnn s hrun hin hpc hf
  have target : addressOperand nnn = s.pc := BitVec.eq_of_toNat_eq ((addressOperand_toNat nnn).trans hpc.symm)
  obtain ⟨-, -, runs⟩ := stepRunsTheDecodedInstruction s hrun hin
  calc step s
    _ = exec (.jp nnn) s := runs _ _ hf (decodeOfEncodeIsTheInstruction (.jp nnn))
    _ = .next (setPc s (addressOperand nnn)) := rfl
    _ = .next s := by rw [target]; rfl

/-! ## The other events -/

/-- Settles O12: a tick writes the two timers, each counted down, and `n` ticks by induction (`tick_iterate`). -/
theorem tickCountsDownAndStopsAtZero : Obligations.TickCountsDownAndStopsAtZero :=
  ⟨fun _ => ⟨rfl, rfl, rfl⟩, tick_iterate⟩

/-- Settles O13: the flags by `key_setPressed`, the latch by the conditions of a qualifying release
(`qualifies_iff`), and the event writes no other field (`setPressed_eq`). -/
theorem setPressedWritesTheFlagAndLatchesReleases : Obligations.SetPressedWritesTheFlagAndLatchesReleases := by
  intro s k down
  refine ⟨?_, fun j hj => ?_, fun j => ?_, fun hq => ?_, fun hq => ?_, ?_⟩
  · rw [key_setPressed, if_pos rfl]
  · rw [key_setPressed, if_neg hj.symm]
  · rw [isPressed, key_setPressed]
    exact if_congr eq_comm rfl rfl
  · rw [setPressed_latch, if_pos (qualifies_iff.mpr hq)]
  · rw [setPressed_latch, if_neg fun h => hq (qualifies_iff.mp h)]
  · rw [setPressed_eq]

end Sys2Proof.Proofs.ExceptionRules
end

section
/-! What the block events answer, said once: the values that `init` leaves, the image that `load_program` has copied,
and a next state after every event the spec gives a meaning (spec/70_reset_and_hazards.md R250 to R256, R267). -/
namespace Sys2Proof.Machine

/-- `init` leaves the values of the start state, whatever the state it is issued in: they are values of the spec's own
fields, and `reinit` keeps only the two fields of the model's own (R250, R251). -/
theorem resetValues_reinit (s : State) : ResetValues (reinit s) :=
  have values : ResetValues State.reset := Proofs.StateRules.resetStateHasTheResetValues
  { values with }

/-- Byte `k` of the image is read at 0x200 + k after the copy (R254). -/
theorem readByte_image (bytes : List Byte) (m : Memory) {k : Nat} (h : k < bytes.length) :
    readByte (writeBytes m 0x200 bytes) (0x200 + k) = bytes.getD k 0 := by
  rw [readByte_writeBytes_inside bytes m 0x200 k h, List.getD_eq_getElem _ _ h]

/-- Every cycle answers a next state: the error of the fetch or of the decoder, or what the instruction answers
(`exec_answers`; R203, R267). -/
theorem runCycle_answers (s : State) : ∃ t, runCycle s = .next t := by
  rcases runCycle_cases s with ⟨e, -, hc⟩ | ⟨op, -, -, hc⟩ | ⟨op, d, -, -, hc⟩
  · exact ⟨_, hc⟩
  · exact ⟨_, hc⟩
  · obtain ⟨t, h⟩ := exec_answers d s
    exact ⟨t, hc.trans h⟩

/-- The `step` event answers a next state in each of the three run states (R210 to R212, R267). -/
theorem stepEvent_answers (s : State) : ∃ t, stepEvent s = .next t := by
  cases hrun : s.runState with
  | running =>
    rw [stepEvent_running hrun]
    exact runCycle_answers s
  | waitingForKey => exact ⟨_, stepEvent_waiting hrun⟩
  | halted r => exact ⟨_, stepEvent_halted hrun⟩

/-- In the state `init` leaves, `load_program` answers a next state for every image (R254, R255). -/
theorem loadProgram_answers {s : State} (bytes : List Byte) (h : s = reinit s) :
    ∃ t, loadProgram bytes s = .next t := by
  rw [loadProgram_boot bytes h]
  split
  · exact ⟨_, rfl⟩
  · exact ⟨_, rfl⟩

/-- Every event answers a next state, but for a `load_program` outside the state `init` leaves (R256, R267). -/
theorem handleEvent_answers (e : Event) (s : State) :
    (∃ t, handleEvent e s = .next t) ∨ ∃ bytes, e = .loadProgram bytes ∧ s ≠ reinit s := by
  cases e with
  | init => exact .inl ⟨_, rfl⟩
  | loadProgram bytes =>
    by_cases hboot : s = reinit s
    · exact .inl (loadProgram_answers bytes hboot)
    · exact .inr ⟨bytes, rfl, hboot⟩
  | step => exact .inl (stepEvent_answers s)
  | tick => exact .inl ⟨_, rfl⟩
  | setPressed k down => exact .inl ⟨_, rfl⟩

end Sys2Proof.Machine
end

section
/-! Reset and hazards (spec/70_reset_and_hazards.md): `init` from any state, `load_program` in the state `init` leaves
and outside it, and that every event ends with a next state. -/
namespace Sys2Proof.Proofs.ResetRules
open Sys2Proof Sys2Proof.Machine

/-- Settles O14: the state is `reinit s`, which has the values (`resetValues_reinit`). -/
theorem initGivesTheResetValuesFromAnyState : Obligations.InitGivesTheResetValuesFromAnyState :=
  fun s => ⟨reinit s, rfl, resetValues_reinit s⟩

/-- Settles O16: the two outcomes of `loadProgram_boot`; the copy is read back inside the image (`readByte_image`) and
leaves the bytes outside it (`readByte_writeBytes_outside`). -/
theorem loadProgramCopiesTheImageTo0x200 : Obligations.LoadProgramCopiesTheImageTo0x200 := by
  intro s bytes hboot
  rw [loadProgram_boot bytes hboot]
  refine ⟨fun hfits => ⟨_, if_pos hfits, fun k => readByte_image bytes s.mem, ?_, rfl⟩, fun hlarge => ?_⟩
  · exact readByte_writeBytes_outside bytes s.mem 0x200
  · rw [if_neg (Nat.not_le_of_lt hlarge)]
    rfl

/-- Settles O17: the boot test of the event fails (`loadProgram_late`). -/
theorem lateLoadProgramHasNoMove : Obligations.LateLoadProgramHasNoMove :=
  fun _ bytes => loadProgram_late bytes

/-- Settles O11: with no event issued it is the `step` event, which answers (`stepEvent_answers`); the oldest event
issued answers too, or is the late `load_program` (`handleEvent_answers`), which stops (O17). -/
theorem everyEventEndsWithANextState : Obligations.EveryEventEndsWithANextState := by
  intro s
  cases hin : s.inputs with
  | nil =>
    rw [step_default hin]
    exact .inl (stepEvent_answers s)
  | cons e rest =>
    rw [step_input hin]
    rcases handleEvent_answers e { s with inputs := rest } with hnext | ⟨bytes, rfl, hlate⟩
    · exact .inl hnext
    · exact .inr ⟨bytes, rest, rfl, hlate, lateLoadProgramHasNoMove _ bytes hlate⟩

end Sys2Proof.Proofs.ResetRules
end
